-- ==== Sys2Proof/Word.lean ====
section
/-! DEFINITION. The word types of the machine: bytes, 16-bit words, 12-bit addresses and register numbers
(00_scope.md R5, R7). -/

namespace Sys2Proof

/-- Contents of a register, of a timer and of a memory location; the field `kk` (00_scope.md R5). -/
abbrev Byte := BitVec 8

/-- The instruction word, `I`, `pc`, a stack entry and the latch `opcode` (00_scope.md R5, R6). -/
abbrev Word := BitVec 16

/-- The address field `nnn` of an instruction (30_encoding.md R71). -/
abbrev Addr12 := BitVec 12

/-- The number of a general register, 0 to 15 (10_state.md R21). -/
abbrev Reg := Fin 16

/-- The number of a key, 0 to 15 (10_state.md R34). -/
abbrev Key := Fin 16

end Sys2Proof
end

