-- ==== Sys2Proof/Syntax.lean ====
section
/-! DEFINITION. The 34 instructions of 30_encoding.md R77, one constructor each, in the order of the table.
Register operands are register numbers, `kk` a byte, `nnn` a 12-bit address and `n` a row count (R71, R76). -/

namespace Sys2Proof

/-- One constructor per row of spec/opcode_table.json (30_encoding.md R77). The row count `n` of DRW is a natural
number, bounded by `Instr.wellFormed`; SHR and SHL keep the field `y` that no rule reads (R80; log 11). -/
inductive Instr where
  /-- `00E0`, CLS (43_display.md R160). -/
  | cls
  /-- `00EE`, RET (40_flow.md R102). -/
  | ret
  /-- `1nnn`, JP addr (40_flow.md R100). -/
  | jp (nnn : Addr12)
  /-- `2nnn`, CALL addr (40_flow.md R101). -/
  | call (nnn : Addr12)
  /-- `3xkk`, SE Vx, kk (40_flow.md R104). -/
  | seImm (x : Reg) (kk : Byte)
  /-- `4xkk`, SNE Vx, kk (40_flow.md R105). -/
  | sneImm (x : Reg) (kk : Byte)
  /-- `5xy0`, SE Vx, Vy (40_flow.md R106). -/
  | seReg (x y : Reg)
  /-- `6xkk`, LD Vx, kk (41_alu.md R120). -/
  | ldImm (x : Reg) (kk : Byte)
  /-- `7xkk`, ADD Vx, kk (41_alu.md R121). -/
  | addImm (x : Reg) (kk : Byte)
  /-- `8xy0`, LD Vx, Vy (41_alu.md R122). -/
  | ldReg (x y : Reg)
  /-- `8xy1`, OR Vx, Vy (41_alu.md R123). -/
  | orReg (x y : Reg)
  /-- `8xy2`, AND Vx, Vy (41_alu.md R124). -/
  | andReg (x y : Reg)
  /-- `8xy3`, XOR Vx, Vy (41_alu.md R125). -/
  | xorReg (x y : Reg)
  /-- `8xy4`, ADD Vx, Vy (41_alu.md R126). -/
  | addReg (x y : Reg)
  /-- `8xy5`, SUB Vx, Vy (41_alu.md R127). -/
  | subReg (x y : Reg)
  /-- `8xy6`, SHR Vx (41_alu.md R128); `y` is ignored (30_encoding.md R80). -/
  | shr (x y : Reg)
  /-- `8xy7`, SUBN Vx, Vy (41_alu.md R129). -/
  | subnReg (x y : Reg)
  /-- `8xyE`, SHL Vx (41_alu.md R130); `y` is ignored (30_encoding.md R80). -/
  | shl (x y : Reg)
  /-- `9xy0`, SNE Vx, Vy (40_flow.md R107). -/
  | sneReg (x y : Reg)
  /-- `Annn`, LD I, addr (42_index_memory.md R141). -/
  | ldI (nnn : Addr12)
  /-- `Bnnn`, JP V0, addr (40_flow.md R103). -/
  | jpV0 (nnn : Addr12)
  /-- `Cxkk`, RND Vx, kk (41_alu.md R131). -/
  | rnd (x : Reg) (kk : Byte)
  /-- `Dxyn`, DRW Vx, Vy, n (43_display.md R161). -/
  | drw (x y : Reg) (n : Nat)
  /-- `Ex9E`, SKP Vx (44_keypad_timers.md R170). -/
  | skp (x : Reg)
  /-- `ExA1`, SKNP Vx (44_keypad_timers.md R171). -/
  | sknp (x : Reg)
  /-- `Fx07`, LD Vx, DT (44_keypad_timers.md R173). -/
  | ldVxDT (x : Reg)
  /-- `Fx0A`, LD Vx, K (44_keypad_timers.md R172). -/
  | ldVxK (x : Reg)
  /-- `Fx15`, LD DT, Vx (44_keypad_timers.md R174). -/
  | ldDTVx (x : Reg)
  /-- `Fx18`, LD ST, Vx (44_keypad_timers.md R175). -/
  | ldSTVx (x : Reg)
  /-- `Fx1E`, ADD I, Vx (42_index_memory.md R142). -/
  | addI (x : Reg)
  /-- `Fx29`, LD F, Vx (42_index_memory.md R143). -/
  | ldF (x : Reg)
  /-- `Fx33`, LD B, Vx (42_index_memory.md R144). -/
  | ldB (x : Reg)
  /-- `Fx55`, LD [I], Vx (42_index_memory.md R145). -/
  | storeRegs (x : Reg)
  /-- `Fx65`, LD Vx, [I] (42_index_memory.md R146). -/
  | loadRegs (x : Reg)
  deriving DecidableEq, Repr

end Sys2Proof
end

