-- ==== Sys2Proof/Machine/Font.lean ====
section
/-! DEFINITION. The font: its place in memory and the 80 bytes of 10_state.md R41, five bytes per digit. The bytes are
the spec's default of an open parameter, from general knowledge (log 2: PRESUMED); the base is decision D17 (log 3). -/

namespace Sys2Proof.Machine

/-- `FONT_BASE` (00_scope.md R6). -/
def fontBase : Nat := 0x50

/-- The glyphs of the digits 0 to F, two digits a line (10_state.md R41). -/
def fontBytes : List Byte :=
  [0xF0, 0x90, 0x90, 0x90, 0xF0,  0x20, 0x60, 0x20, 0x20, 0x70] ++
  [0xF0, 0x10, 0xF0, 0x80, 0xF0,  0xF0, 0x10, 0xF0, 0x10, 0xF0] ++
  [0x90, 0x90, 0xF0, 0x10, 0x10,  0xF0, 0x80, 0xF0, 0x10, 0xF0] ++
  [0xF0, 0x80, 0xF0, 0x90, 0xF0,  0xF0, 0x10, 0x20, 0x40, 0x40] ++
  [0xF0, 0x90, 0xF0, 0x90, 0xF0,  0xF0, 0x90, 0xF0, 0x10, 0xF0] ++
  [0xF0, 0x90, 0xF0, 0x90, 0x90,  0xE0, 0x90, 0xE0, 0x90, 0xE0] ++
  [0xF0, 0x80, 0x80, 0x80, 0xF0,  0xE0, 0x90, 0x90, 0x90, 0xE0] ++
  [0xF0, 0x80, 0xF0, 0x80, 0xF0,  0xF0, 0x80, 0xF0, 0x80, 0x80]

/-- `FONT_TABLE`, the default table (10_state.md R41). -/
def fontTable : Vector Byte 80 := ⟨fontBytes.toArray, rfl⟩

/-- The byte RESET leaves at an address, with the default font: the font at 0x050 to 0x09F, else 0 (10_state.md R40). -/
def resetByte (a : Nat) : Byte :=
  if h : fontBase ≤ a ∧ a < fontBase + 80 then fontTable[a - fontBase]'(by omega) else 0

end Sys2Proof.Machine
end

