-- ==== Sys2Proof/Config.lean ====
section
/-! DEFINITION. What is fixed for the machine but is no state of it: the addresses of the program area
(00_scope.md R5) and the one free value, the random byte (41_alu.md R131). The font table, which a test can show
wrong, stands in Machine/Font.lean. -/

namespace Sys2Proof

/-- The random byte of the `k`-th draw: a free value with no law (41_alu.md R131, decision D15; log 1). -/
opaque Config.randomByte : Nat → Byte

/-- `PROGRAM_BASE`, where LOAD places the first byte of an image (00_scope.md R5). -/
abbrev Config.programBase : Nat := 0x200

/-- The longest image LOAD takes, `4096 - 0x200` bytes (70_reset_and_hazards.md R224). -/
abbrev Config.imageLimit : Nat := 3584

end Sys2Proof
end

