-- ==== Sys2Proof/Machine/State.lean ====
section
/-! DEFINITION. The machine state as 10_state.md R20 lists it, its reset value (R40), and the reasons a step can
stop (60_exceptions.md R191). -/

namespace Sys2Proof.Machine

/-- The 4096 bytes of memory as a sorted list of the bytes that differ from their reset contents (20_memory.md R50;
log 13). `Memory.read` (Machine/Ops.lean) reads it. -/
abbrev Memory := List Host.Cell

/-- The 32 rows of 64 one-bit cells, `display[row][col]` (10_state.md R33); `true` is 1, a lit cell. -/
abbrev Display := Vector (Vector Bool 64) 32

/-- The Machine State (10_state.md R20). Every field but `draws` is a member the spec names. -/
structure State where
  /-- `memory` (R32, R50). -/
  mem : Memory
  /-- The general registers `V[0]` to `V[15]`; `V[15]` is the flag register `VF` (R21, R23). -/
  V : Vector Byte 16
  /-- The index register (R26). -/
  I : Word
  /-- The program counter (R24). -/
  pc : Word
  /-- The call stack (R27). -/
  stack : Vector Word 16
  /-- The count of stack entries in use, 0 to 16 (R27). -/
  sp : Fin 17
  /-- The delay timer (R28). -/
  DT : Byte
  /-- The sound timer (R28). -/
  ST : Byte
  /-- The display grid (R33). -/
  display : Display
  /-- The key states, `true` for pressed (R34). -/
  keypad : Vector Bool 16
  /-- The instruction latch (R30). -/
  opcode : Word
  /-- THE MODEL'S OWN: how many random bytes have been drawn, in place of the member `rng` (R29; log 1). -/
  draws : Nat
  deriving DecidableEq, Repr

/-- The state RESET leaves (R40), with the default font table: no memory byte differs from its reset contents.
`draws := 0` is a DESIGN CHOICE (log 1). -/
def State.reset : State where
  mem := []
  V := Vector.replicate 16 0
  I := 0
  pc := 0x200
  stack := Vector.replicate 16 0
  sp := 0
  DT := 0
  ST := 0
  display := Vector.replicate 32 (Vector.replicate 64 false)
  keypad := Vector.replicate 16 false
  opcode := 0
  draws := 0

/-- The faults of 60_exceptions.md R191. Each carries `left`, the state the fault leaves: every write made before
the point of the fault stays (R193; log 7). Stopping on each is safe: the spec itself stops there (R194). -/
inductive Fault where
  /-- The fetched word matches no row of the opcode map; raised by `step` (R191 code 1). Safe. -/
  | unknownOpcode (w : Word) (left : State)
  /-- `pc + 1 > 4095` at fetch; raised by `fetch` (R191 code 2). Safe. -/
  | fetchOutOfBounds (pc : Word) (left : State)
  /-- A data access above address 4095; raised by DRW, LD B, LD [I],Vx, LD Vx,[I] (R191 code 3). Safe. -/
  | memoryOutOfBounds (addr : Nat) (left : State)
  /-- CALL with sixteen entries in use; raised by CALL (R191 code 4). Safe. -/
  | stackOverflow (left : State)
  /-- RET with no entry in use; raised by RET (R191 code 5). Safe. -/
  | stackUnderflow (left : State)
  /-- A set sprite bit off the grid; raised by DRW (R191 code 6). Safe. -/
  | displayOutOfBounds (col row : Nat) (left : State)
  /-- A key number above 15; raised by SKP and SKNP (R191 code 7). Safe. -/
  | keypadOutOfBounds (k : Nat) (left : State)
  deriving DecidableEq, Repr

/-- Why the model gives no meaning. Only the last three occur, and only for a host transaction, never in a step. -/
inductive Refusal where
  /-- An instruction of the table whose meaning is not written; raised by an arm of `exec`. Safe. -/
  | notModelled (mnemonic : String)
  /-- LOAD of more than 3584 bytes; raised by `transact` (70_reset_and_hazards.md R224). Safe. -/
  | imageTooLong (length : Nat)
  /-- A second LOAD, or a LOAD after the first STEP; raised by `transact` (R224, decision D23). Safe. -/
  | loadOutOfPlace
  /-- A STEP after a fault; raised by `transact` (60_exceptions.md R194). Safe. -/
  | stepAfterFault
  deriving DecidableEq, Repr

/-- What a step, or a part of one, answers. -/
abbrev Result := Host.Outcome State Fault Refusal

end Sys2Proof.Machine
end

