-- ==== Sys2Proof/Machine/Ops.lean ====
section
/-! DEFINITION. The named operations over the state: memory, registers, the call stack, the latch, the display, and
raising a fault. Every meaning is written over these. -/

namespace Sys2Proof.Machine

/-! ### Sequencing and faults -/

/-- The next line of pseudocode: it runs only when the lines before it completed (60_exceptions.md R193). -/
def andThen (o : Result) (f : State → Result) : Result :=
  match o with
  | .next s => f s
  | .fault r => .fault r
  | .refused r => .refused r

/-- `raise F`: the step ends here with the fault `F`, and what was written before stays (60_exceptions.md R193). The
machine has no trap entry, no handler and no return from a fault (R197, R198), so this is the whole of it. -/
def raise (f : State → Fault) (s : State) : Result := .fault (f s)

/-- The code of a fault cause (60_exceptions.md R191). -/
def Fault.code : Fault → Nat
  | .unknownOpcode _ _ => 1
  | .fetchOutOfBounds _ _ => 2
  | .memoryOutOfBounds _ _ => 3
  | .stackOverflow _ => 4
  | .stackUnderflow _ => 5
  | .displayOutOfBounds _ _ _ => 6
  | .keypadOutOfBounds _ _ => 7

/-- The state a fault leaves (60_exceptions.md R193). -/
def Fault.leftState : Fault → State
  | .unknownOpcode _ s => s
  | .fetchOutOfBounds _ s => s
  | .memoryOutOfBounds _ s => s
  | .stackOverflow s => s
  | .stackUnderflow s => s
  | .displayOutOfBounds _ _ s => s
  | .keypadOutOfBounds _ s => s

/-! ### Memory -/

/-- The byte at an address; an address not listed holds its reset contents (20_memory.md R52; log 13). -/
def Memory.read : Memory → Nat → Byte
  | [], a => resetByte a
  | (k, v) :: rest, a => if a = k then v else Memory.read rest a

/-- An entry for `a` before the entries of `rest`, left out when the byte is the reset contents. -/
def Memory.entry (a : Nat) (b : Byte) (rest : Memory) : Memory :=
  if b = resetByte a then rest else (a, b) :: rest

/-- The memory with byte `b` at address `a`, in canonical form (20_memory.md R53). -/
def Memory.write : Memory → Nat → Byte → Memory
  | [], a, b => Memory.entry a b []
  | (k, v) :: rest, a, b =>
    if a < k then Memory.entry a b ((k, v) :: rest)
    else if a = k then Memory.entry a b rest
    else (k, v) :: Memory.write rest a b

/-- Bytes written at consecutive addresses from `a` on. -/
def Memory.writeList : Memory → Nat → List Byte → Memory
  | m, _, [] => m
  | m, a, b :: bs => Memory.writeList (Memory.write m a b) (a + 1) bs

/-- The canonical form from address `lo` on: addresses strictly rising and at most 4095, and no entry equal to the
reset contents. -/
def Memory.wfFrom : Nat → Memory → Bool
  | _, [] => true
  | lo, (k, v) :: rest => decide (lo ≤ k) && decide (k < 4096) && (v != resetByte k) && Memory.wfFrom (k + 1) rest

/-- The canonical form of a memory. -/
def Memory.wf (m : Memory) : Bool := Memory.wfFrom 0 m

/-- The byte of memory at an address. -/
def State.byteAt (s : State) (a : Nat) : Byte := s.mem.read a

/-- `MemRead(addr, 1)`, handing the byte to the lines after it (20_memory.md R52). -/
def memRead (addr : Nat) (s : State) (f : Byte → Result) : Result :=
  if addr ≤ 4095 then f (s.byteAt addr) else raise (.memoryOutOfBounds addr) s

/-- `MemWrite(addr, 1, v)` (20_memory.md R53). -/
def memWrite (addr : Nat) (v : Byte) (s : State) : Result :=
  if addr ≤ 4095 then .next { s with mem := s.mem.write addr v } else raise (.memoryOutOfBounds addr) s

/-! ### Registers -/

/-- `V[x]` (00_scope.md R8). -/
def State.getV (s : State) (x : Reg) : Byte := s.V[x.val]

/-- `V[x] <- v` (00_scope.md R8). -/
def State.setV (s : State) (x : Reg) (v : Byte) : State := { s with V := s.V.set x.val v }

/-- The number of the flag register `VF` (10_state.md R23). -/
abbrev regVF : Reg := 15

/-- `pc <- target` (00_scope.md R8). -/
def State.setPc (s : State) (target : Word) : State := { s with pc := target }

/-- `I <- v` (00_scope.md R8). -/
def State.setI (s : State) (v : Word) : State := { s with I := v }

/-- A skip: `pc <- pc + 2` on top of the advance of the fetch (40_flow.md R109; log 9). -/
def State.skipIf (s : State) (c : Bool) : State := if c then s.setPc (s.pc + 2) else s

/-- `r <- draw8()`: a fresh random byte, handed to the lines after it (41_alu.md R131; log 1). -/
def State.draw (s : State) (f : Byte → State → State) : State :=
  f (Config.randomByte s.draws) { s with draws := s.draws + 1 }

/-! ### The call stack -/

/-- Push the return address `pc`, or StackOverflow when sixteen entries are in use (40_flow.md R101). -/
def pushPc (s : State) : Result :=
  if h : s.sp.val < 16 then
    .next { s with stack := s.stack.set s.sp.val s.pc, sp := ⟨s.sp.val + 1, by omega⟩ }
  else raise .stackOverflow s

/-- Pop into `pc`, or StackUnderflow when no entry is in use; the popped entry keeps its contents (40_flow.md R102). -/
def popPc (s : State) : Result :=
  if 0 < s.sp.val then
    .next { s with pc := s.stack[s.sp.val - 1]'(by omega), sp := ⟨s.sp.val - 1, by omega⟩ }
  else raise .stackUnderflow s

/-! ### The display -/

/-- The cell `display[row][col]` (10_state.md R33). -/
def State.cell (s : State) (row : Fin 32) (col : Fin 64) : Bool := (s.display[row.val])[col.val]

/-- Exclusive OR of a set sprite bit into one cell (43_display.md R161). -/
def State.flipCell (s : State) (row : Fin 32) (col : Fin 64) : State :=
  { s with display := s.display.set row.val ((s.display[row.val]).set col.val (!s.cell row col)) }

/-! ### Fetch -/

/-- The two bytes at `pc` and `pc + 1` as a word, big-endian (20_memory.md R55). -/
def State.fetchedWord (s : State) : Word := wordOf (s.byteAt s.pc.toNat) (s.byteAt (s.pc.toNat + 1))

/-- Lines 1 to 4 of the STEP algorithm: the fetch bound, the latch, the advance (30_encoding.md R72). -/
def fetch (s : State) : Result :=
  if s.pc.toNat + 1 ≤ 4095 then .next { s with opcode := s.fetchedWord, pc := s.pc + 2 }
  else raise (.fetchOutOfBounds s.pc) s

/-- The state with a word stored where the next step fetches it; a `pc` from which nothing can be fetched is set to
0x200 first (log 10). -/
def State.placeWord (s : State) (w : Word) : State :=
  let a := if s.pc.toNat + 1 ≤ 4095 then s.pc else BitVec.ofNat 16 Config.programBase
  { s with pc := a, mem := s.mem.writeList a.toNat (wordBytes w) }

end Sys2Proof.Machine
end

