-- ==== Sys2Proof/Machine/Flags.lean ====
section
/-! DEFINITION. The values written to the flag register `VF` (10_state.md R23) and the 8-bit results beside them
(41_alu.md R132). -/

namespace Sys2Proof.Machine

/-- A condition as a flag value: 1 if it holds, else 0 (10_state.md R23). -/
def flagByte (c : Bool) : Byte := if c then 1 else 0

/-- The carry of ADD Vx,Vy: 1 if the sum exceeds 255 (41_alu.md R126). -/
def carryFlag (a b : Byte) : Byte := flagByte (decide (255 < a.toNat + b.toNat))

/-- The flag of SUB and SUBN: 1 if `a` is strictly greater than `b` (41_alu.md R127, R129; log 15). -/
def greaterFlag (a b : Byte) : Byte := flagByte (decide (b.toNat < a.toNat))

/-- The bit SHR shifts out: bit 0 (41_alu.md R128). -/
def lowBitFlag (a : Byte) : Byte := flagByte (a.getLsbD 0)

/-- The bit SHL shifts out: bit 7 (41_alu.md R130). -/
def highBitFlag (a : Byte) : Byte := flagByte (a.getLsbD 7)

/-- `VF <- v` (10_state.md R23). -/
def State.setVF (s : State) (v : Byte) : State := s.setV regVF v

/-- The read-modify-write of SUB, SUBN, SHR and SHL: the flag is written first, then `V[x]` from the registers as
they stand after the flag write (41_alu.md R133, decision D8; log 5). -/
def flagThenUpdate (s : State) (flag : Byte) (x : Reg) (result : State → Byte) : State :=
  let s' := s.setVF flag
  s'.setV x (result s')

end Sys2Proof.Machine
end

