-- ==== Sys2Proof/Machine/Operands.lean ====
section
/-! DEFINITION. Operand forms of 30_encoding.md R76: how an immediate, an address field or a register operand becomes
the value, address, key number, digit or coordinate an instruction uses. Nothing is sign-extended, scaled or
masked. -/

namespace Sys2Proof.Machine

/-- `zext_16(nnn)`: the address field as a 16-bit value (R76). -/
def addrOperand (nnn : Addr12) : Word := nnn.setWidth 16

/-- `zext_16(V[x])`: a register as a 16-bit offset (R76). -/
def offsetOperand (s : State) (x : Reg) : Word := (s.getV x).setWidth 16

/-- `I + k` on natural numbers, not reduced (20_memory.md R57). -/
def indexAddr (s : State) (k : Nat) : Nat := s.I.toNat + k

/-- A coordinate of DRW, 0 to 255, not reduced (43_display.md R161 (c)). -/
def coordOperand (s : State) (x : Reg) : Nat := (s.getV x).toNat

/-- The registers 0 to `x` in ascending order, for the block transfers (42_index_memory.md R145, R146). -/
def regsUpTo (x : Reg) : List Reg := (List.finRange 16).take (x.val + 1)

/-- The key that `V[x]` names, handed to the lines after it; KeypadOutOfBounds above 15 (44_keypad_timers.md R170,
decision D13). -/
def withKey (s : State) (x : Reg) (f : Key → Result) : Result :=
  if h : (s.getV x).toNat < 16 then f ⟨(s.getV x).toNat, h⟩ else raise (.keypadOutOfBounds (s.getV x).toNat) s

/-- Whether key `k` is pressed (10_state.md R34). -/
def State.keyDown (s : State) (k : Key) : Bool := s.keypad[k.val]

/-- The lowest pressed key, if any: the scan of LD Vx,K (44_keypad_timers.md R172, decision D14). -/
def State.firstKey (s : State) : Option Key := (List.finRange 16).find? s.keyDown

/-- The hundreds, tens and ones of a byte, as binary bytes (42_index_memory.md R144). -/
def bcdDigits (v : Byte) : List Byte :=
  [BitVec.ofNat 8 (v.toNat / 100), BitVec.ofNat 8 (v.toNat / 10 % 10), BitVec.ofNat 8 (v.toNat % 10)]

/-- The address of the glyph of a digit, `FONT_BASE + 5 * V[x]` on the whole byte (42_index_memory.md R143,
decision D16; log 3). -/
def glyphAddr (s : State) (x : Reg) : Word := BitVec.ofNat 16 (fontBase + 5 * (s.getV x).toNat)

/-- `MemWrite` of each byte in turn, at ascending addresses, up to the first fault (42_index_memory.md R140). -/
def storeBytes : Nat → List Byte → State → Result
  | _, [], s => .next s
  | a, b :: bs, s => andThen (memWrite a b s) (storeBytes (a + 1) bs)

/-- `MemRead` into each register in turn, at ascending addresses, up to the first fault (42_index_memory.md R140). -/
def loadBytes : Nat → List Reg → State → Result
  | _, [], s => .next s
  | a, k :: ks, s => memRead a s (fun b => loadBytes (a + 1) ks (s.setV k b))

end Sys2Proof.Machine
end

