-- ==== Sys2Proof/Machine/Alu.lean ====
section
/-! DEFINITION. Register loads, arithmetic, logic, shifts and the random byte (41_alu.md). -/

namespace Sys2Proof.Machine

/-- LD Vx, kk (R120). -/
def execLdImm (x : Reg) (kk : Byte) (s : State) : Result := .next (s.setV x kk)

/-- ADD Vx, kk: no carry flag (R121). -/
def execAddImm (x : Reg) (kk : Byte) (s : State) : Result := .next (s.setV x (s.getV x + kk))

/-- LD Vx, Vy (R122). -/
def execLdReg (x y : Reg) (s : State) : Result := .next (s.setV x (s.getV y))

/-- OR Vx, Vy (R123). -/
def execOrReg (x y : Reg) (s : State) : Result := .next (s.setV x (s.getV x ||| s.getV y))

/-- AND Vx, Vy (R124). -/
def execAndReg (x y : Reg) (s : State) : Result := .next (s.setV x (s.getV x &&& s.getV y))

/-- XOR Vx, Vy (R125). -/
def execXorReg (x y : Reg) (s : State) : Result := .next (s.setV x (s.getV x ^^^ s.getV y))

/-- ADD Vx, Vy: the sum is formed first, then `VF` is written, then the sum is stored (R126, R133). -/
def execAddReg (x y : Reg) (s : State) : Result :=
  .next ((s.setVF (carryFlag (s.getV x) (s.getV y))).setV x (s.getV x + s.getV y))

/-- SUB Vx, Vy (R127). -/
def execSubReg (x y : Reg) (s : State) : Result :=
  .next (flagThenUpdate s (greaterFlag (s.getV x) (s.getV y)) x fun t => t.getV x - t.getV y)

/-- SHR Vx; the field `y` is ignored (R128). -/
def execShr (x _y : Reg) (s : State) : Result :=
  .next (flagThenUpdate s (lowBitFlag (s.getV x)) x fun t => t.getV x >>> 1)

/-- SUBN Vx, Vy (R129). -/
def execSubnReg (x y : Reg) (s : State) : Result :=
  .next (flagThenUpdate s (greaterFlag (s.getV y) (s.getV x)) x fun t => t.getV y - t.getV x)

/-- SHL Vx; the field `y` is ignored (R130). -/
def execShl (x _y : Reg) (s : State) : Result :=
  .next (flagThenUpdate s (highBitFlag (s.getV x)) x fun t => t.getV x <<< 1)

/-- RND Vx, kk (R131). -/
def execRnd (x : Reg) (kk : Byte) (s : State) : Result := .next (s.draw fun r t => t.setV x (r &&& kk))

end Sys2Proof.Machine
end

