-- ==== Sys2Proof/Machine/Display.lean ====
section
/-! DEFINITION. The display instructions (43_display.md). The order of reads, the bit order of a sprite byte and the
fault for set bits only are decision D11 (log 6). -/

namespace Sys2Proof.Machine

/-- CLS (R160). -/
def execCls (s : State) : Result := .next { s with display := Vector.replicate 32 (Vector.replicate 64 false) }

/-- A set sprite bit on column `col` and row `row`: off the grid a fault, else note a collision and flip the cell
(R161). -/
def drawPixel (col row : Nat) (s : State) : Result :=
  if h : col < 64 ∧ row < 32 then
    let lit := s.cell ⟨row, h.2⟩ ⟨col, h.1⟩
    .next ((if lit then s.setVF 1 else s).flipCell ⟨row, h.2⟩ ⟨col, h.1⟩)
  else raise (.displayOutOfBounds col row) s

/-- Pixel `c` of a sprite byte, counted from the left: bit `7 - c` (R161 (b)). -/
def spriteBit (b : Byte) (c : Nat) : Bool := b.getLsbD (7 - c)

/-- The pixels `cs` of one sprite row, left to right; an unset bit makes no access (R161 (c)). -/
def drawPixels (cx row : Nat) (b : Byte) : List Nat → State → Result
  | [], s => .next s
  | c :: cs, s =>
    andThen (if spriteBit b c then drawPixel (cx + c) row s else .next s) (drawPixels cx row b cs)

/-- The rows `rs` of a sprite at address `base`, top to bottom: read the byte, then place its eight pixels (R161). -/
def drawRows (cx cy base : Nat) : List Nat → State → Result
  | [], s => .next s
  | r :: rs, s =>
    andThen (memRead (base + r) s fun b => drawPixels cx (cy + r) b (List.range 8) s) (drawRows cx cy base rs)

/-- DRW Vx, Vy, n: the coordinates are read first, then `VF` is cleared, then the rows are drawn (R161 (a)). -/
def execDrw (x y : Reg) (n : Nat) (s : State) : Result :=
  drawRows (coordOperand s x) (coordOperand s y) (indexAddr s 0) (List.range n) (s.setVF 0)

end Sys2Proof.Machine
end

