-- ==== Sys2Proof/Machine/Flow.lean ====
section
/-! DEFINITION. Control transfer (40_flow.md). When a meaning runs, `pc` already holds the address of the
instruction plus 2. -/

namespace Sys2Proof.Machine

/-- JP addr (R100). -/
def execJp (nnn : Addr12) (s : State) : Result := .next (s.setPc (addrOperand nnn))

/-- CALL addr (R101). -/
def execCall (nnn : Addr12) (s : State) : Result := andThen (pushPc s) fun t => .next (t.setPc (addrOperand nnn))

/-- RET (R102). -/
def execRet (s : State) : Result := popPc s

/-- JP V0, addr: the sum is not masked to 12 bits (R103). -/
def execJpV0 (nnn : Addr12) (s : State) : Result := .next (s.setPc (addrOperand nnn + offsetOperand s 0))

/-- SE Vx, kk (R104). -/
def execSeImm (x : Reg) (kk : Byte) (s : State) : Result := .next (s.skipIf (decide (s.getV x = kk)))

/-- SNE Vx, kk (R105). -/
def execSneImm (x : Reg) (kk : Byte) (s : State) : Result := .next (s.skipIf (decide (s.getV x ≠ kk)))

/-- SE Vx, Vy (R106). -/
def execSeReg (x y : Reg) (s : State) : Result := .next (s.skipIf (decide (s.getV x = s.getV y)))

/-- SNE Vx, Vy (R107). -/
def execSneReg (x y : Reg) (s : State) : Result := .next (s.skipIf (decide (s.getV x ≠ s.getV y)))

end Sys2Proof.Machine
end

