-- ==== Sys2Proof/Machine/IndexMemory.lean ====
section
/-! DEFINITION. The index register and the memory instructions (42_index_memory.md). None of them changes `pc`, and
no load or store changes `I` (R140). -/

namespace Sys2Proof.Machine

/-- LD I, addr (R141). -/
def execLdI (nnn : Addr12) (s : State) : Result := .next (s.setI (addrOperand nnn))

/-- ADD I, Vx: modulo 65536, `VF` not written (R142). -/
def execAddI (x : Reg) (s : State) : Result := .next (s.setI (s.I + offsetOperand s x))

/-- LD F, Vx (R143). -/
def execLdF (x : Reg) (s : State) : Result := .next (s.setI (glyphAddr s x))

/-- LD B, Vx (R144). -/
def execLdB (x : Reg) (s : State) : Result := storeBytes (indexAddr s 0) (bcdDigits (s.getV x)) s

/-- LD [I], Vx (R145). -/
def execStoreRegs (x : Reg) (s : State) : Result := storeBytes (indexAddr s 0) ((regsUpTo x).map s.getV) s

/-- LD Vx, [I] (R146). -/
def execLoadRegs (x : Reg) (s : State) : Result := loadBytes (indexAddr s 0) (regsUpTo x) s

end Sys2Proof.Machine
end

