-- ==== Sys2Proof/Machine/KeypadTimers.lean ====
section
/-! DEFINITION. The keypad and timer instructions (44_keypad_timers.md). -/

namespace Sys2Proof.Machine

/-- SKP Vx (R170). -/
def execSkp (x : Reg) (s : State) : Result := withKey s x fun k => .next (s.skipIf (s.keyDown k))

/-- SKNP Vx (R171). -/
def execSknp (x : Reg) (s : State) : Result := withKey s x fun k => .next (s.skipIf (!s.keyDown k))

/-- LD Vx, K: with no key pressed `pc` goes back to this instruction and the step ends normally (R172). -/
def execLdVxK (x : Reg) (s : State) : Result :=
  match s.firstKey with
  | some k => .next (s.setV x (BitVec.ofNat 8 k.val))
  | none => .next (s.setPc (s.pc - 2))

/-- LD Vx, DT (R173). -/
def execLdVxDT (x : Reg) (s : State) : Result := .next (s.setV x s.DT)

/-- LD DT, Vx (R174). -/
def execLdDTVx (x : Reg) (s : State) : Result := .next { s with DT := s.getV x }

/-- LD ST, Vx (R175). -/
def execLdSTVx (x : Reg) (s : State) : Result := .next { s with ST := s.getV x }

end Sys2Proof.Machine
end

