-- ==== Sys2Proof/Machine/Step.lean ====
section
/-! DEFINITION. The STEP transaction (30_encoding.md R72, 60_exceptions.md R206) and the placing of a word where the
next step fetches it. -/

namespace Sys2Proof.Machine

/-- Lines 5 and 6 of the STEP algorithm, on the state after the fetch: select the instruction of the latched word and
run it, or UnknownOpcode (30_encoding.md R72). -/
def execLatched (s : State) : Host.Outcome State Fault Refusal :=
  match decodeWord s.opcode with
  | .ok i => exec i s
  | .error _ => raise (.unknownOpcode s.opcode) s

/-- One STEP: fetch, advance, dispatch, execute (30_encoding.md R72). -/
def step (s : State) : Host.Outcome State Fault Refusal := andThen (fetch s) execLatched

/-- The state with the table word `w` stored where `step` fetches its next instruction (log 10). -/
def State.withFetchWord (s : State) (nbits w : Nat) : State := s.placeWord (tableWord nbits w)

end Sys2Proof.Machine
end

