-- ==== Sys2Proof/Machine/Transactions.lean ====
section
/-! DEFINITION. The six transactions of the machine (00_scope.md R10; 60_exceptions.md R205 to R211;
70_reset_and_hazards.md R220 to R228): the effect of each on the state, and which orders of them have a meaning. -/

namespace Sys2Proof.Machine

/-! ### The effect of each transaction on the Machine State -/

/-- RESET with a given font table: everything zero, `pc = 0x200`, the font at `FONT_BASE` (R220, 10_state.md R40,
R41). `State.reset` is this state for the default font table. -/
def resetWith (font : Vector Byte 80) : State :=
  { State.reset with mem := Memory.writeList [] fontBase font.toList }

/-- LOAD: the image at 0x200 upward; nothing else changes (R224). -/
def load (img : List Byte) (s : State) : State := { s with mem := s.mem.writeList Config.programBase img }

/-- One timer counted down by one, not below zero (60_exceptions.md R207). -/
def countDown (t : Byte) : Byte := if t = 0 then 0 else t - 1

/-- TICK (60_exceptions.md R207). -/
def tick (s : State) : State := { s with DT := countDown s.DT, ST := countDown s.ST }

/-- KEYS: all sixteen key states (60_exceptions.md R210). -/
def keys (k : Vector Bool 16) (s : State) : State := { s with keypad := k }

/-- KEYS of a single entry (60_exceptions.md R210). -/
def setKey (k : Key) (down : Bool) (s : State) : State := { s with keypad := s.keypad.set k.val down }

/-- DISPLAY_READ, bit-addressed: the cell of index `row * 64 + col` (60_exceptions.md R211). -/
def displayBits (s : State) : Vector Bool 2048 :=
  Vector.ofFn fun (i : Fin 2048) => s.cell ⟨i.val / 64, by omega⟩ ⟨i.val % 64, by omega⟩

/-- DISPLAY_READ, byte-addressed: one byte of value 0 or 1 per cell (60_exceptions.md R211). -/
def displayBytes (s : State) : Vector Byte 2048 := (displayBits s).map flagByte

/-! ### Which transactions have a meaning when -/

/-- Where a run stands. No state of the machine: it says which transactions the spec still gives a meaning (log 8). -/
inductive Phase where
  /-- After RESET: LOAD may happen (R224). -/
  | fresh
  /-- After the one LOAD, before the first STEP (R224). -/
  | loaded
  /-- After a STEP that completed. -/
  | running
  /-- After a STEP that faulted: no further STEP is defined (60_exceptions.md R194). -/
  | stopped
  deriving DecidableEq, Repr

/-- A machine and where its run stands. -/
structure Session where
  phase : Phase
  machine : State
  deriving DecidableEq, Repr

/-- The transactions a host issues (00_scope.md R10). -/
inductive Transaction where
  /-- RESET (70_reset_and_hazards.md R220). That the font table is an argument here, so that two RESETs of one session
  may load different tables, is a DESIGN CHOICE (log 2): the rule calls the table a fixed internal constant of the
  machine and leaves its bytes open (10_state.md R41). -/
  | reset (font : Vector Byte 80)
  | load (img : List Byte)
  | step
  | tick
  | keys (k : Vector Bool 16)
  | displayRead
  deriving DecidableEq, Repr

/-- What a transaction answers: STEP `ok` or `fault(cause)` (60_exceptions.md R206), DISPLAY_READ the cells. -/
inductive Response where
  | done
  | ok
  | fault (r : Fault)
  | cells (bits : Vector Bool 2048)
  deriving DecidableEq, Repr

/-- The first RESET of a machine. -/
def Session.start (font : Vector Byte 80) : Session := ⟨.fresh, resetWith font⟩

/-- LOAD in a phase: once, after RESET, before the first STEP, at most 3584 bytes (R224, decision D23). -/
def transactLoad (img : List Byte) (m : Session) : Except Refusal (Session × Response) :=
  match m.phase with
  | .fresh =>
    if img.length ≤ Config.imageLimit then .ok (⟨.loaded, Machine.load img m.machine⟩, .done)
    else .error (.imageTooLong img.length)
  | .loaded => .error .loadOutOfPlace
  | .running => .error .loadOutOfPlace
  | .stopped => .error .loadOutOfPlace

/-- The answer of STEP: a fault stops the machine and leaves the state of 60_exceptions.md R193. -/
def afterStep (o : Result) : Except Refusal (Session × Response) :=
  match o with
  | .next s => .ok (⟨.running, s⟩, .ok)
  | .fault r => .ok (⟨.stopped, r.leftState⟩, .fault r)
  | .refused r => .error r

/-- STEP in a phase: none after a fault (60_exceptions.md R194). -/
def transactStep (m : Session) : Except Refusal (Session × Response) :=
  match m.phase with
  | .fresh => afterStep (Machine.step m.machine)
  | .loaded => afterStep (Machine.step m.machine)
  | .running => afterStep (Machine.step m.machine)
  | .stopped => .error .stepAfterFault

/-- One transaction. RESET, TICK, KEYS and DISPLAY_READ have a meaning in every phase (log 8); RESET loads the font
table of its argument, whichever an earlier RESET loaded (DESIGN CHOICE, log 2), and keeps counting the draws, so that
a second machine's random bytes are fresh ones (log 16). -/
def transact (t : Transaction) (m : Session) : Except Refusal (Session × Response) :=
  match t with
  | .reset font => .ok (⟨.fresh, { resetWith font with draws := m.machine.draws }⟩, .done)
  | .load img => transactLoad img m
  | .step => transactStep m
  | .tick => .ok (⟨m.phase, Machine.tick m.machine⟩, .done)
  | .keys k => .ok (⟨m.phase, Machine.keys k m.machine⟩, .done)
  | .displayRead => .ok (m, .cells (displayBits m.machine))

/-- A list of transactions in turn, up to the first that has no meaning; the answer is the last session. -/
def transactAll : List Transaction → Session → Except Refusal Session
  | [], m => .ok m
  | t :: ts, m =>
    match transact t m with
    | .ok (m', _) => transactAll ts m'
    | .error r => .error r

/-! ### The end of a run (70_reset_and_hazards.md R226; log 17) -/

/-- The model's convention for a successful end, a DESIGN CHOICE the spec asks for (decision D27, log 17): `pc` points
at a JP to its own address. It does not say that the host stops stepping there, that the host reads the display then,
or that the timers have stopped. -/
def State.ended (s : State) : Bool :=
  decide (s.pc.toNat + 1 ≤ 4095) && decide (decodeWord s.fetchedWord = .ok (.jp (s.pc.setWidth 12)))

/-- A run stands at a successful end: the convention holds and no STEP has faulted, since a run that ends in a fault is
not a successful run (60_exceptions.md R194; log 17). -/
def Session.endedWell (m : Session) : Bool := decide (m.phase ≠ .stopped) && m.machine.ended

end Sys2Proof.Machine
end

