-- ==== Sys2Proof/Safety.lean ====
section
/-! DEFINITION. What claims speak of: the state a step leaves, when an instruction completes (70_reset_and_hazards.md
R227), which cells a sprite covers (43_display.md R161), and the invariant of the machine. -/

namespace Sys2Proof.Machine

/-- The state a step leaves, whether it completed or faulted (60_exceptions.md R193). -/
def leaves (o : Result) : Option State :=
  match o with
  | .next s => some s
  | .fault r => some r.leftState
  | .refused _ => none

/-- Pixel `c` of row `r` of a sprite at address `base`, drawn at column `cx` and row `cy`, can be placed: it is unset
or on the grid (43_display.md R161). -/
def pixelFits (s : State) (cx cy base r c : Nat) : Prop :=
  spriteBit (s.byteAt (base + r)) c = true → cx + c < 64 ∧ cy + r < 32

/-- Row `r` of a sprite can be read and placed whole (43_display.md R161). -/
def rowFits (s : State) (cx cy base r : Nat) : Prop :=
  base + r ≤ 4095 ∧ ∀ c < 8, pixelFits s cx cy base r c

/-- The first `n` rows of a sprite can be read and placed (43_display.md R161). -/
def spriteFits (s : State) (x y : Reg) (n : Nat) : Prop :=
  ∀ r < n, rowFits s (coordOperand s x) (coordOperand s y) (indexAddr s 0) r

/-- The cell in row `row` and column `col` is under a set sprite bit that comes before pixel `c` of row `r` in the
order of drawing: rows top to bottom, pixels left to right (43_display.md R161). -/
def coveredBefore (s : State) (cx cy base r c : Nat) (row : Fin 32) (col : Fin 64) : Bool :=
  decide (cy ≤ row.val ∧ cx ≤ col.val ∧ col.val < cx + 8 ∧
    (row.val < cy + r ∨ row.val = cy + r ∧ col.val < cx + c)) &&
  spriteBit (s.byteAt (base + (row.val - cy))) (col.val - cx)

/-- The cell is under a set bit of the whole sprite of `n` rows. -/
def covered (s : State) (x y : Reg) (n : Nat) (row : Fin 32) (col : Fin 64) : Bool :=
  coveredBefore s (coordOperand s x) (coordOperand s y) (indexAddr s 0) n 0 row col

/-- When an instruction completes, that is does not fault (60_exceptions.md R191, R192; 70_reset_and_hazards.md
R227). -/
def Runnable : Instr → State → Prop
  | .cls, _ => True
  | .ret, s => 0 < s.sp.val
  | .jp _, _ => True
  | .call _, s => s.sp.val < 16
  | .seImm _ _, _ => True
  | .sneImm _ _, _ => True
  | .seReg _ _, _ => True
  | .ldImm _ _, _ => True
  | .addImm _ _, _ => True
  | .ldReg _ _, _ => True
  | .orReg _ _, _ => True
  | .andReg _ _, _ => True
  | .xorReg _ _, _ => True
  | .addReg _ _, _ => True
  | .subReg _ _, _ => True
  | .shr _ _, _ => True
  | .subnReg _ _, _ => True
  | .shl _ _, _ => True
  | .sneReg _ _, _ => True
  | .ldI _, _ => True
  | .jpV0 _, _ => True
  | .rnd _ _, _ => True
  | .drw x y n, s => spriteFits s x y n
  | .skp x, s => (s.getV x).toNat ≤ 15
  | .sknp x, s => (s.getV x).toNat ≤ 15
  | .ldVxDT _, _ => True
  | .ldVxK _, _ => True
  | .ldDTVx _, _ => True
  | .ldSTVx _, _ => True
  | .addI _, _ => True
  | .ldF _, _ => True
  | .ldB _, s => indexAddr s 2 ≤ 4095
  | .storeRegs x, s => indexAddr s x.val ≤ 4095
  | .loadRegs x, s => indexAddr s x.val ≤ 4095

/-- `t` is `s` with register `k` holding `f k`, for every `k`, and nothing else different. -/
def RegistersBecome (s t : State) (f : Reg → Byte) : Prop :=
  t = { s with V := t.V } ∧ ∀ k, t.getV k = f k

/-- `t` is `s` with `n` bytes stored at the addresses `I`, `I + 1`, ..., byte `k` of them `f k`, every other byte of
memory as before and nothing else different (42_index_memory.md R140). -/
def BytesStored (s t : State) (n : Nat) (f : Nat → Byte) : Prop :=
  t = { s with mem := t.mem } ∧
  ∀ a, t.byteAt a = if indexAddr s 0 ≤ a ∧ a < indexAddr s n then f (a - indexAddr s 0) else s.byteAt a

/-- The registers an instruction may write: its destination `x`, `VF` where it defines a flag, and the registers 0 to
`x` of a block load (10_state.md R20, R23). -/
def mayWrite : Instr → Reg → Bool
  | .cls, _ => false
  | .ret, _ => false
  | .jp _, _ => false
  | .call _, _ => false
  | .seImm _ _, _ => false
  | .sneImm _ _, _ => false
  | .seReg _ _, _ => false
  | .ldImm x _, k => k == x
  | .addImm x _, k => k == x
  | .ldReg x _, k => k == x
  | .orReg x _, k => k == x
  | .andReg x _, k => k == x
  | .xorReg x _, k => k == x
  | .addReg x _, k => k == x || k == regVF
  | .subReg x _, k => k == x || k == regVF
  | .shr x _, k => k == x || k == regVF
  | .subnReg x _, k => k == x || k == regVF
  | .shl x _, k => k == x || k == regVF
  | .sneReg _ _, _ => false
  | .ldI _, _ => false
  | .jpV0 _, _ => false
  | .rnd x _, k => k == x
  | .drw _ _ _, k => k == regVF
  | .skp _, _ => false
  | .sknp _, _ => false
  | .ldVxDT x, k => k == x
  | .ldVxK x, k => k == x
  | .ldDTVx _, _ => false
  | .ldSTVx _, _ => false
  | .addI _, _ => false
  | .ldF _, _ => false
  | .ldB _, _ => false
  | .storeRegs _, _ => false
  | .loadRegs x, k => decide (k.val ≤ x.val)

/-- The invariant of the machine: memory in canonical form, `pc` at most 0x10FE (10_state.md R24), and every stack
entry a value some CALL can push, at most 4096 (decision D3). `sp` is at most 16 by its type (10_state.md R27). -/
def State.Inv (s : State) : Prop :=
  s.mem.wf = true ∧ s.pc.toNat ≤ 0x10FE ∧ ∀ k : Fin 16, (s.stack[k.val]).toNat ≤ 4096

end Sys2Proof.Machine
end

