-- ==== Sys2Proof/Certificates/Slice0/Obligations.lean ====
section
/-! DEFINITION. The statements for the provers, each about the machine and no program. A docstring names the rule of
spec/ that is formalised, and where a statement rests on a decision of the spec or of the model, that decision. -/

open Sys2Proof Sys2Proof.Machine

/-! ### The STEP algorithm and the encoding -/

/-- 30_encoding.md R72, lines 1 to 6: the fetch bound, the big-endian word, the latch, the advance, the selection, the
instruction; a word that selects nothing faults after the latch and the advance. -/
def Obligations.StepFollowsTheAlgorithm : Prop :=
  ∀ s : State,
    (4095 < s.pc.toNat + 1 → step s = .fault (.fetchOutOfBounds s.pc s)) ∧
    (s.pc.toNat + 1 ≤ 4095 →
      ∀ w : Word, w.toNat = (s.byteAt s.pc.toNat).toNat * 256 + (s.byteAt (s.pc.toNat + 1)).toNat →
        (∀ i, decodeWord w = .ok i → step s = exec i { s with opcode := w, pc := s.pc + 2 }) ∧
        (∀ e, decodeWord w = .error e →
          step s = .fault (.unknownOpcode w { s with opcode := w, pc := s.pc + 2 })))

/-- When the two bytes at `pc` decode to a well-formed instruction, a step is that instruction's meaning on the state
with the word latched and `pc` advanced by 2 (30_encoding.md R72, 20_memory.md R55). -/
def Obligations.StepRunsTheDecodedInstruction : Prop :=
  ∀ (s : State) (i : Instr), i.wellFormed = true → s.pc.toNat + 1 ≤ 4095 →
    decode [s.byteAt s.pc.toNat, s.byteAt (s.pc.toNat + 1)] = .ok (i, []) →
    step s = exec i { s with opcode := wordOf (s.byteAt s.pc.toNat) (s.byteAt (s.pc.toNat + 1)), pc := s.pc + 2 }

/-- 10_state.md R30: `opcode` is written at every fetch that does not fault, and a completed step leaves it holding
the word of the instruction just executed. -/
def Obligations.StepLatchesTheFetchedWord : Prop :=
  (∀ s t : State, step s = .next t → t.opcode = s.fetchedWord) ∧
  (∀ (s : State) (f : Fault), step s = .fault f →
    f.leftState.opcode = if s.pc.toNat + 1 ≤ 4095 then s.fetchedWord else s.opcode)

/-- 30_encoding.md R71: the six fields of every word by bit position, how they overlap, and where they stand in the two
bytes of the word. -/
def Obligations.FieldsOfAWord : Prop :=
  ∀ w : Word,
    (fieldOp w).toNat = w.toNat / 4096 ∧ (fieldX w).toNat = w.toNat / 256 % 16 ∧
    (fieldY w).toNat = w.toNat / 16 % 16 ∧ (fieldN w).toNat = w.toNat % 16 ∧
    (fieldKK w).toNat = w.toNat % 256 ∧ (fieldNNN w).toNat = w.toNat % 4096 ∧
    (fieldNNN w).toNat = (fieldX w).toNat * 256 + (fieldKK w).toNat ∧
    (fieldKK w).toNat = (fieldY w).toNat * 16 + (fieldN w).toNat ∧
    ∀ hi lo : Byte, wordOf hi lo = w →
      hi.toNat = (fieldOp w).toNat * 16 + (fieldX w).toNat ∧ lo.toNat = (fieldKK w).toNat

/-- Decoding the two bytes of any well-formed instruction gives that instruction back and leaves the bytes after it.
The patterns are the spec's own, from general knowledge (30_encoding.md R77, G1; log 4). -/
def Obligations.DecodeOfEncodeIsTheInstruction : Prop :=
  ∀ (i : Instr) (rest : List Byte), i.wellFormed = true → decode (wordBytes (encode i) ++ rest) = .ok (i, rest)

/-- Every word has one meaning: a word that decodes is the encoding of the instruction it decodes to, which is well
formed (30_encoding.md R77, G1; log 4). -/
def Obligations.EncodeOfDecodeIsTheWord : Prop :=
  ∀ (w : Word) (i : Instr), decodeWord w = .ok i → i.wellFormed = true ∧ encode i = w

/-- The two-level dispatch of R75 accepts exactly the words that match a row of the opcode map of R77, and gives the
instruction of that row (30_encoding.md R75, R77, decision D6). -/
def Obligations.DispatchAgreesWithTheOpcodeMap : Prop :=
  (∀ w : Word, (∃ i, decodeWord w = .ok i) ↔ ∃ r ∈ opcodeTable, r.accepts w = true) ∧
  (∀ (w : Word) (i : Instr), decodeWord w = .ok i → (rowOf i).accepts w = true)

/-- The opcode map has 34 rows and no two of them accept one word (30_encoding.md R77). -/
def Obligations.OpcodeRowsAreDisjoint : Prop :=
  opcodeTable.length = 34 ∧
  opcodeTable.Pairwise fun r q => ∀ w : Word, ¬ (r.accepts w = true ∧ q.accepts w = true)

/-- The complete set of unknown opcodes, family by family (30_encoding.md R79, decision D6): each of those words is
rejected by its own name and no other word is. -/
def Obligations.UnknownOpcodesAreExactlyTheListed : Prop :=
  ∀ w : Word, decodeWord w = .error (.unknownOpcode w) ↔
    (fieldOp w = 0x0#4 ∧ fieldNNN w ≠ 0x0E0#12 ∧ fieldNNN w ≠ 0x0EE#12) ∨
    ((fieldOp w = 0x5#4 ∨ fieldOp w = 0x9#4) ∧ fieldN w ≠ 0x0#4) ∨
    (fieldOp w = 0x8#4 ∧ fieldN w ∈ [0x8#4, 0x9#4, 0xA#4, 0xB#4, 0xC#4, 0xD#4, 0xF#4]) ∨
    (fieldOp w = 0xE#4 ∧ fieldKK w ∉ [0x9E#8, 0xA1#8]) ∨
    (fieldOp w = 0xF#4 ∧ fieldKK w ∉ [0x07#8, 0x0A#8, 0x15#8, 0x18#8, 0x1E#8, 0x29#8, 0x33#8, 0x55#8, 0x65#8])

/-- A few words of the spec's examples, one per file of instructions, decode to the instruction they stand for
(30_encoding.md R77; patterns from general knowledge, G1). -/
def Obligations.ExampleWordsDecode : Prop :=
  decodeWord 0x1ABC = .ok (.jp 0xABC) ∧ decodeWord 0x00EE = .ok .ret ∧ decodeWord 0x3A05 = .ok (.seImm 10 5) ∧
  decodeWord 0x8127 = .ok (.subnReg 1 2) ∧ decodeWord 0xF255 = .ok (.storeRegs 2) ∧
  decodeWord 0xD125 = .ok (.drw 1 2 5) ∧ decodeWord 0xE1A1 = .ok (.sknp 1) ∧ decodeWord 0xF10A = .ok (.ldVxK 1)

/-! ### Control transfer -/

/-- 40_flow.md R100: JP sets `pc` to the address, zero-extended, and changes nothing else. -/
def Obligations.JpSetsPc : Prop :=
  ∀ (nnn : Addr12) (s : State), ∃ target : Word,
    target.toNat = nnn.toNat ∧ exec (.jp nnn) s = .next { s with pc := target }

/-- 40_flow.md R103: JP V0 sets `pc` to the sum of the address and `V[0]`, not masked to 12 bits and not reduced
(decision D2), and changes nothing else. -/
def Obligations.JpV0AddsWithoutReduction : Prop :=
  ∀ (nnn : Addr12) (s : State), ∃ target : Word,
    target.toNat = nnn.toNat + (s.getV 0).toNat ∧ exec (.jpV0 nnn) s = .next { s with pc := target }

/-- 40_flow.md R101: with fewer than sixteen entries in use CALL stores `pc` in the next free entry, counts it and
jumps; with sixteen it faults with StackOverflow and changes nothing. -/
def Obligations.CallPushesAndJumps : Prop :=
  ∀ (nnn : Addr12) (s : State),
    (∀ h : s.sp.val < 16, ∃ t : State, exec (.call nnn) s = .next t ∧
      t = { s with stack := s.stack.set s.sp.val s.pc h, sp := t.sp, pc := t.pc } ∧
      t.sp.val = s.sp.val + 1 ∧ t.pc.toNat = nnn.toNat) ∧
    (s.sp.val = 16 → exec (.call nnn) s = .fault (.stackOverflow s))

/-- 40_flow.md R102: with an entry in use RET counts it off and sets `pc` to it, leaving the entry as it is; with none
it faults with StackUnderflow and changes nothing. -/
def Obligations.RetPopsPc : Prop :=
  ∀ s : State,
    (0 < s.sp.val → ∃ t : State, exec .ret s = .next t ∧ t = { s with pc := t.pc, sp := t.sp } ∧
      t.sp.val + 1 = s.sp.val ∧ ∀ h : t.sp.val < 16, t.pc = s.stack[t.sp.val]) ∧
    (s.sp.val = 0 → exec .ret s = .fault (.stackUnderflow s))

/-- 40_flow.md R101: CALL then RET restores `pc` and the depth, and leaves every stack entry but the one pushed. -/
def Obligations.CallThenRetReturns : Prop :=
  ∀ (nnn : Addr12) (s : State), s.sp.val < 16 →
    ∃ t : State, andThen (exec (.call nnn) s) (exec .ret) = .next t ∧ t.pc = s.pc ∧ t.sp = s.sp ∧
      t = { s with stack := t.stack } ∧ ∀ k : Fin 16, k.val ≠ s.sp.val → t.stack[k.val] = s.stack[k.val]

/-- 40_flow.md R104 to R107: each register-compare skip adds 2 to `pc` when its condition holds, and otherwise changes
nothing at all. -/
def Obligations.CompareSkipsMovePc : Prop :=
  ∀ (x y : Reg) (kk : Byte) (s : State),
    exec (.seImm x kk) s = .next { s with pc := if s.getV x = kk then s.pc + 2 else s.pc } ∧
    exec (.sneImm x kk) s = .next { s with pc := if s.getV x ≠ kk then s.pc + 2 else s.pc } ∧
    exec (.seReg x y) s = .next { s with pc := if s.getV x = s.getV y then s.pc + 2 else s.pc } ∧
    exec (.sneReg x y) s = .next { s with pc := if s.getV x ≠ s.getV y then s.pc + 2 else s.pc }

/-! ### Loads, arithmetic, logic, shifts, random -/

/-- 41_alu.md R120, R122: the two register loads write their destination and nothing else. -/
def Obligations.RegisterLoadsWriteTheDestination : Prop :=
  ∀ (x y : Reg) (kk : Byte) (s : State),
    (∃ t, exec (.ldImm x kk) s = .next t ∧ RegistersBecome s t fun k => if k = x then kk else s.getV k) ∧
    (∃ t, exec (.ldReg x y) s = .next t ∧ RegistersBecome s t fun k => if k = x then s.getV y else s.getV k)

/-- 41_alu.md R121, R123, R124, R125: ADD immediate modulo 256 and the three logic operations write their destination
and nothing else; `VF` changes only as the destination (decision D22). -/
def Obligations.AddImmediateAndLogicResults : Prop :=
  ∀ (x y : Reg) (kk : Byte) (s : State),
    (∃ t, exec (.addImm x kk) s = .next t ∧ RegistersBecome s t fun k =>
      if k = x then BitVec.ofNat 8 (((s.getV x).toNat + kk.toNat) % 256) else s.getV k) ∧
    (∃ t, exec (.orReg x y) s = .next t ∧ RegistersBecome s t fun k =>
      if k = x then s.getV x ||| s.getV y else s.getV k) ∧
    (∃ t, exec (.andReg x y) s = .next t ∧ RegistersBecome s t fun k =>
      if k = x then s.getV x &&& s.getV y else s.getV k) ∧
    (∃ t, exec (.xorReg x y) s = .next t ∧ RegistersBecome s t fun k =>
      if k = x then s.getV x ^^^ s.getV y else s.getV k)

/-- 41_alu.md R126: the sum of the old operands, `VF` 1 if it exceeds 255 else 0, then the sum modulo 256 stored, so
that with `x = 15` the carry is overwritten. -/
def Obligations.AddRegistersSetsCarry : Prop :=
  ∀ (x y : Reg) (s : State), ∃ t, exec (.addReg x y) s = .next t ∧ RegistersBecome s t fun k =>
    if k = x then BitVec.ofNat 8 (((s.getV x).toNat + (s.getV y).toNat) % 256)
    else if k = 15 then (if 255 < (s.getV x).toNat + (s.getV y).toNat then 1 else 0)
    else s.getV k

/-- 41_alu.md R127, R129, R134: SUB and SUBN with their strict flags, and the cases in which register 15 is an operand,
as the table of R134 gives them (order of flag and result: decision D8, log 5; strict comparison: C11, log 15). -/
def Obligations.SubtractionsWithRegister15Cases : Prop :=
  ∀ (x y : Reg) (s : State),
    (∃ t, exec (.subReg x y) s = .next t ∧ RegistersBecome s t fun k =>
      let a := (s.getV x).toNat
      let b := (s.getV y).toNat
      let f := if b < a then 1 else 0
      if x = 15 ∧ y = 15 then (if k = 15 then 0 else s.getV k)
      else if x = 15 then (if k = 15 then BitVec.ofNat 8 ((f + 256 - b) % 256) else s.getV k)
      else if y = 15 then
        (if k = x then BitVec.ofNat 8 ((a + 256 - f) % 256) else if k = 15 then BitVec.ofNat 8 f else s.getV k)
      else (if k = x then BitVec.ofNat 8 ((a + 256 - b) % 256) else if k = 15 then BitVec.ofNat 8 f else s.getV k)) ∧
    (∃ t, exec (.subnReg x y) s = .next t ∧ RegistersBecome s t fun k =>
      let a := (s.getV x).toNat
      let b := (s.getV y).toNat
      let f := if a < b then 1 else 0
      if x = 15 ∧ y = 15 then (if k = 15 then 0 else s.getV k)
      else if x = 15 then (if k = 15 then BitVec.ofNat 8 ((b + 256 - f) % 256) else s.getV k)
      else if y = 15 then
        (if k = x then BitVec.ofNat 8 ((f + 256 - a) % 256) else if k = 15 then BitVec.ofNat 8 f else s.getV k)
      else (if k = x then BitVec.ofNat 8 ((b + 256 - a) % 256) else if k = 15 then BitVec.ofNat 8 f else s.getV k))

/-- 41_alu.md R128, R130, R134 and 30_encoding.md R80: SHR and SHL by one, `VF` the bit shifted out, `y` ignored; with
`x = 15` SHR leaves `VF` 0 and SHL leaves it twice its old bit 7 (decisions D7, D8; log 5). -/
def Obligations.ShiftsByOneIgnoreY : Prop :=
  ∀ (x y : Reg) (s : State),
    (∃ t, exec (.shr x y) s = .next t ∧ RegistersBecome s t fun k =>
      if x = 15 then (if k = 15 then 0 else s.getV k)
      else if k = x then BitVec.ofNat 8 ((s.getV x).toNat / 2)
      else if k = 15 then BitVec.ofNat 8 ((s.getV x).toNat % 2) else s.getV k) ∧
    (∃ t, exec (.shl x y) s = .next t ∧ RegistersBecome s t fun k =>
      if x = 15 then (if k = 15 then BitVec.ofNat 8 (2 * ((s.getV 15).toNat / 128)) else s.getV k)
      else if k = x then BitVec.ofNat 8 (2 * (s.getV x).toNat % 256)
      else if k = 15 then BitVec.ofNat 8 ((s.getV x).toNat / 128) else s.getV k)

/-- 41_alu.md R131: RND writes a random byte under the mask `kk` and nothing else; the byte is a free value, the draw
of the model's own counter (decision D15, log 1), which moves on; every bit that is 0 in `kk` is 0 and the result is
at most `kk`, whatever the draw. -/
def Obligations.RandomByteUnderTheMask : Prop :=
  ∀ (x : Reg) (kk : Byte) (s : State), ∃ t, exec (.rnd x kk) s = .next t ∧
    t = { s with V := t.V, draws := s.draws + 1 } ∧
    (∀ k, t.getV k = if k = x then Config.randomByte s.draws &&& kk else s.getV k) ∧
    t.getV x &&& ~~~kk = 0 ∧ (t.getV x).toNat ≤ kk.toNat

/-! ### Index register and memory -/

/-- 42_index_memory.md R141: LD I sets `I` to the address with the upper four bits 0, and changes nothing else. -/
def Obligations.LdISetsTheIndex : Prop :=
  ∀ (nnn : Addr12) (s : State), ∃ v : Word, v.toNat = nnn.toNat ∧ exec (.ldI nnn) s = .next { s with I := v }

/-- 42_index_memory.md R142, R143: ADD I adds modulo 65536 and writes no flag (decisions D4, D22); LD F gives
`FONT_BASE + 5 * V[x]` on the whole byte (decision D16, log 3); neither changes anything else. -/
def Obligations.AddIAndLdFSetTheIndex : Prop :=
  ∀ (x : Reg) (s : State),
    (∃ v : Word, v.toNat = (s.I.toNat + (s.getV x).toNat) % 65536 ∧ exec (.addI x) s = .next { s with I := v }) ∧
    (∃ v : Word, v.toNat = 0x50 + 5 * (s.getV x).toNat ∧ exec (.ldF x) s = .next { s with I := v })

/-- 20_memory.md R52, R53: a read gives the byte at the address and a write makes it read as written, leaving every
other byte and everything else; above address 4095 both fault with MemoryOutOfBounds and write nothing. The memory is
in its canonical form (log 13). -/
def Obligations.MemoryAccessReadsAndWrites : Prop :=
  ∀ (a : Nat) (v : Byte) (s : State) (f : Byte → Result), s.mem.wf = true →
    (a ≤ 4095 → memRead a s f = f (s.byteAt a) ∧
      ∃ t : State, memWrite a v s = .next t ∧ t = { s with mem := t.mem } ∧
        ∀ c, t.byteAt c = if c = a then v else s.byteAt c) ∧
    (4095 < a → memRead a s f = .fault (.memoryOutOfBounds a s) ∧ memWrite a v s = .fault (.memoryOutOfBounds a s))

/-- 42_index_memory.md R144: LD B stores the hundreds, tens and ones of `V[x]` at `I`, `I + 1`, `I + 2`; it faults at
the first of them above 4095, and the digits before it are stored. -/
def Obligations.BcdStoresThreeDigits : Prop :=
  ∀ (x : Reg) (s : State), s.mem.wf = true →
    let v := (s.getV x).toNat
    let digit := fun k : Nat => if k = 0 then BitVec.ofNat 8 (v / 100) else if k = 1 then BitVec.ofNat 8 (v / 10 % 10)
      else BitVec.ofNat 8 (v % 10)
    (indexAddr s 2 ≤ 4095 → ∃ t, exec (.ldB x) s = .next t ∧ BytesStored s t 3 digit) ∧
    (∀ k < 3, 4095 < indexAddr s k → (∀ j < k, indexAddr s j ≤ 4095) →
      ∃ t, exec (.ldB x) s = .fault (.memoryOutOfBounds (indexAddr s k) t) ∧ BytesStored s t k digit)

/-- 42_index_memory.md R145: LD [I],Vx stores the registers 0 to `x` at `I` upward; it faults at the first address
above 4095, and the bytes before it are stored. -/
def Obligations.BlockStoreWritesMemory : Prop :=
  ∀ (x : Reg) (s : State), s.mem.wf = true →
    let reg := fun k : Nat => if h : k < 16 then s.getV ⟨k, h⟩ else 0
    (indexAddr s x.val ≤ 4095 → ∃ t, exec (.storeRegs x) s = .next t ∧ BytesStored s t (x.val + 1) reg) ∧
    (∀ k ≤ x.val, 4095 < indexAddr s k → (∀ j < k, indexAddr s j ≤ 4095) →
      ∃ t, exec (.storeRegs x) s = .fault (.memoryOutOfBounds (indexAddr s k) t) ∧ BytesStored s t k reg)

/-- 42_index_memory.md R146: LD Vx,[I] loads the registers 0 to `x` from `I` upward; it faults at the first address
above 4095, and the registers before it are loaded. -/
def Obligations.BlockLoadWritesRegisters : Prop :=
  ∀ (x : Reg) (s : State),
    (indexAddr s x.val ≤ 4095 → ∃ t, exec (.loadRegs x) s = .next t ∧
      RegistersBecome s t fun k => if k.val ≤ x.val then s.byteAt (indexAddr s k.val) else s.getV k) ∧
    (∀ k ≤ x.val, 4095 < indexAddr s k → (∀ j < k, indexAddr s j ≤ 4095) →
      ∃ t, exec (.loadRegs x) s = .fault (.memoryOutOfBounds (indexAddr s k) t) ∧
        RegistersBecome s t fun r => if r.val < k then s.byteAt (indexAddr s r.val) else s.getV r)

/-- 42_index_memory.md R146: a block store, then any change of the registers and the latch, then a block load with the
same `I` and `x` restores the registers 0 to `x`. -/
def Obligations.BlockStoreThenLoadRestores : Prop :=
  ∀ (x : Reg) (s t u : State), s.mem.wf = true → exec (.storeRegs x) s = .next t → u.mem = t.mem → u.I = s.I →
    ∃ u', exec (.loadRegs x) u = .next u' ∧
      RegistersBecome u u' fun k => if k.val ≤ x.val then s.getV k else u.getV k

/-- 20_memory.md R64: a store over the bytes at `pc` is seen by the very next fetch (decision D19). -/
def Obligations.StoreIsSeenByTheNextFetch : Prop :=
  ∀ (x : Reg) (k : Nat) (s t : State) (i : Instr) (hk : k < x.val), s.mem.wf = true →
    exec (.storeRegs x) s = .next t → s.pc.toNat = indexAddr s k →
    decodeWord (wordOf (s.getV ⟨k, by omega⟩) (s.getV ⟨k + 1, by omega⟩)) = .ok i →
    step t = exec i
      { t with opcode := wordOf (s.getV ⟨k, by omega⟩) (s.getV ⟨k + 1, by omega⟩), pc := t.pc + 2 }

/-! ### Display -/

/-- 43_display.md R160: CLS sets every cell to 0 and changes nothing else. -/
def Obligations.ClsClearsEveryCell : Prop :=
  ∀ s : State, ∃ t, exec .cls s = .next t ∧ t = { s with display := t.display } ∧ ∀ row col, t.cell row col = false

/-- 43_display.md R161: DRW whose rows can be read and whose set bits lie on the grid completes; every cell is
exclusive-ored with the sprite bit over it, `VF` is 1 exactly when a set bit met a lit cell, the coordinates are those
before `VF` is cleared, and nothing else changes (decision D11, log 6). -/
def Obligations.DrwXorsTheSpriteAndFlagsCollision : Prop :=
  ∀ (x y : Reg) (n : Nat) (s : State), spriteFits s x y n →
    ∃ t, exec (.drw x y n) s = .next t ∧ t = { s with display := t.display, V := t.V } ∧
      (∀ row col, t.cell row col = (s.cell row col ^^ covered s x y n row col)) ∧
      (∀ k, t.getV k = if k = 15 then
        (if ∃ row col, covered s x y n row col = true ∧ s.cell row col = true then 1 else 0) else s.getV k)

/-- 43_display.md R161, 60_exceptions.md R193, R195: a DRW that faults does so at the first row it cannot read or the
first set bit off the grid, in drawing order; what was drawn before that point stays drawn, `VF` tells whether it
collided, and nothing else changed (decisions D9, D11; logs 6, 7). -/
def Obligations.DrwFaultsAtTheFirstViolation : Prop :=
  ∀ (x y : Reg) (n : Nat) (s : State) (f : Fault), exec (.drw x y n) s = .fault f →
    let cx := coordOperand s x
    let cy := coordOperand s y
    let base := indexAddr s 0
    ∃ r c, r < n ∧
      (f = .memoryOutOfBounds (base + r) f.leftState ∧ c = 0 ∧ 4095 < base + r ∨
       f = .displayOutOfBounds (cx + c) (cy + r) f.leftState ∧ c < 8 ∧ base + r ≤ 4095 ∧
        spriteBit (s.byteAt (base + r)) c = true ∧ (63 < cx + c ∨ 31 < cy + r)) ∧
      (∀ r' < r, rowFits s cx cy base r') ∧ (∀ c' < c, pixelFits s cx cy base r c') ∧
      f.leftState = { s with display := f.leftState.display, V := f.leftState.V } ∧
      (∀ row col, f.leftState.cell row col = (s.cell row col ^^ coveredBefore s cx cy base r c row col)) ∧
      (∀ k, f.leftState.getV k = if k = 15 then
        (if ∃ row col, coveredBefore s cx cy base r c row col = true ∧ s.cell row col = true then 1 else 0)
        else s.getV k)

/-- 43_display.md R161 (f): drawing the same sprite twice at the same position restores every cell. With register 15 as
a coordinate the second draw is at another position, so the statement is about the other registers. -/
def Obligations.DrwTwiceRestoresTheDisplay : Prop :=
  ∀ (x y : Reg) (n : Nat) (s : State), x ≠ 15 → y ≠ 15 → spriteFits s x y n →
    ∃ t, andThen (exec (.drw x y n) s) (exec (.drw x y n)) = .next t ∧ t.display = s.display ∧
      (∀ k, t.getV k = if k = 15 then
        (if ∃ row col, covered s x y n row col = true ∧ s.cell row col = false then 1 else 0) else s.getV k)

/-- 43_display.md R162: a sprite whose 8 by `n` box is wholly inside the grid and whose rows lie in memory is drawn
without fault, whatever its bits. -/
def Obligations.DrwInsideTheGridCompletes : Prop :=
  ∀ (x y : Reg) (n : Nat) (s : State), (s.getV x).toNat ≤ 56 → (s.getV y).toNat + n ≤ 32 →
    s.I.toNat + n ≤ 4096 → ∃ t, exec (.drw x y n) s = .next t

/-! ### Keypad and timers -/

/-- 44_keypad_timers.md R170, R171: SKP and SKNP test the key `V[x]` names and add 2 to `pc`, or change nothing; above
15 they fault with KeypadOutOfBounds and change nothing (decision D13). -/
def Obligations.KeySkipsTestTheNamedKey : Prop :=
  ∀ (x : Reg) (s : State),
    (∀ h : (s.getV x).toNat < 16,
      exec (.skp x) s = .next { s with pc := if s.keypad[(s.getV x).toNat] = true then s.pc + 2 else s.pc } ∧
      exec (.sknp x) s = .next { s with pc := if s.keypad[(s.getV x).toNat] = false then s.pc + 2 else s.pc }) ∧
    (15 < (s.getV x).toNat →
      exec (.skp x) s = .fault (.keypadOutOfBounds (s.getV x).toNat s) ∧
      exec (.sknp x) s = .fault (.keypadOutOfBounds (s.getV x).toNat s))

/-- 44_keypad_timers.md R172: LD Vx,K loads the lowest pressed key and changes nothing else; with no key pressed it
takes the advance of `pc` back and changes nothing else (decision D14). -/
def Obligations.KeyWaitLoadsTheLowestKey : Prop :=
  ∀ (x : Reg) (s : State),
    (∀ k : Key, s.keypad[k.val] = true → (∀ j < k, s.keypad[j.val] = false) →
      ∃ t, exec (.ldVxK x) s = .next t ∧ RegistersBecome s t fun r => if r = x then BitVec.ofNat 8 k.val else s.getV r) ∧
    ((∀ k : Key, s.keypad[k.val] = false) → exec (.ldVxK x) s = .next { s with pc := s.pc - 2 })

/-- 44_keypad_timers.md R172: while no key is pressed any number of steps leaves `pc` at the waiting instruction and
changes nothing but the latch. -/
def Obligations.KeyWaitHoldsPcAcrossSteps : Prop :=
  ∀ (x : Reg) (s : State) (n : Nat), s.pc.toNat + 1 ≤ 4095 → decodeWord s.fetchedWord = .ok (.ldVxK x) →
    (∀ k : Key, s.keypad[k.val] = false) →
    Host.Core.run core (n + 1) s = .next { s with opcode := s.fetchedWord }

/-- 44_keypad_timers.md R173, R174, R175: LD Vx,DT copies `DT` into `V[x]`; LD DT,Vx and LD ST,Vx copy `V[x]` into a
timer; none changes anything else. -/
def Obligations.TimerLoadsCopy : Prop :=
  ∀ (x : Reg) (s : State),
    (∃ t, exec (.ldVxDT x) s = .next t ∧ RegistersBecome s t fun k => if k = x then s.DT else s.getV k) ∧
    exec (.ldDTVx x) s = .next { s with DT := s.getV x } ∧
    exec (.ldSTVx x) s = .next { s with ST := s.getV x }

/-- 60_exceptions.md R207: TICK counts each timer down by one, not below zero, and changes nothing else. -/
def Obligations.TickCountsBothTimersDown : Prop :=
  ∀ s : State, tick s = { s with DT := (tick s).DT, ST := (tick s).ST } ∧
    (tick s).DT.toNat = s.DT.toNat - 1 ∧ (tick s).ST.toNat = s.ST.toNat - 1

/-- 60_exceptions.md R207: after `n` ticks each timer is the larger of 0 and its initial value less `n`, and nothing
else has changed. -/
def Obligations.TicksReachZeroAndStay : Prop :=
  ∀ (n : Nat) (s : State), tick^[n] s = { s with DT := (tick^[n] s).DT, ST := (tick^[n] s).ST } ∧
    (tick^[n] s).DT.toNat = s.DT.toNat - n ∧ (tick^[n] s).ST.toNat = s.ST.toNat - n

/-- 60_exceptions.md R209: no transaction but RESET and a STEP of LD DT,Vx makes the delay timer larger, so successive
reads never increase. -/
def Obligations.DelayTimerOnlyFalls : Prop :=
  ∀ (t : Transaction) (m m' : Session) (r : Response), transact t m = .ok (m', r) → (∀ font, t ≠ .reset font) →
    m'.machine.DT.toNat ≤ m.machine.DT.toNat ∨
    (t = .step ∧ ∃ x, decodeWord m.machine.fetchedWord = .ok (.ldDTVx x))

/-! ### Host transactions -/

/-- 60_exceptions.md R210: KEYS sets the sixteen key states and changes nothing else; writing one entry is a KEYS with
the other entries unchanged. -/
def Obligations.KeysSetsTheKeypad : Prop :=
  ∀ (k : Vector Bool 16) (s : State) (i : Key) (down : Bool),
    keys k s = { s with keypad := k } ∧
    (∀ j : Key, (setKey i down s).keypad[j.val] = if j = i then down else s.keypad[j.val]) ∧
    setKey i down s = keys (setKey i down s).keypad s

/-- 60_exceptions.md R211: DISPLAY_READ answers the cell `display[row][col]` at index `row * 64 + col`, as a bit or as
a byte of value 0 or 1, and changes nothing (decision D12, log 14). That it is answered in every phase, also after a STEP
has faulted, is the model's choice (log 8: DEDUCED, unsafe). -/
def Obligations.DisplayReadAnswersTheCells : Prop :=
  ∀ (m : Session) (row : Fin 32) (col : Fin 64),
    transact .displayRead m = .ok (m, .cells (displayBits m.machine)) ∧
    (displayBits m.machine)[row.val * 64 + col.val]'(by omega) = m.machine.cell row col ∧
    ((displayBytes m.machine)[row.val * 64 + col.val]'(by omega)).toNat = if m.machine.cell row col then 1 else 0

/-- 10_state.md R40: what RESET leaves, for every font table: all registers, timers, stack entries, cells, keys and the
latch zero, `pc` 0x200, the font at `FONT_BASE = 0x50` (decision D17) and every other byte of memory 0. -/
def Obligations.ResetValues : Prop :=
  ∀ font : Vector Byte 80,
    let s := resetWith font
    (∀ x, s.getV x = 0) ∧ s.I = 0 ∧ s.pc.toNat = 0x200 ∧ s.sp.val = 0 ∧ (∀ k : Fin 16, s.stack[k.val] = 0) ∧
    s.DT = 0 ∧ s.ST = 0 ∧ (∀ row col, s.cell row col = false) ∧ (∀ k : Key, s.keypad[k.val] = false) ∧ s.opcode = 0 ∧
    (∀ j : Fin 80, s.byteAt (0x50 + j.val) = font[j.val]) ∧
    (∀ a, (a < 0x50 ∨ 0x9F < a) → s.byteAt a = 0)

/-- The interface's reset state is RESET with the default font table of 10_state.md R41 (log 2). -/
def Obligations.ResetStateHasTheDefaultFont : Prop := resetWith fontTable = State.reset

/-- 70_reset_and_hazards.md R225: RESET, then LOAD of an image of at most 3584 bytes, gives the launch state: the font
at 0x050 to 0x09F (decision D17), the image from 0x200 on, every other byte 0, and everything else as after RESET. -/
def Obligations.LaunchState : Prop :=
  ∀ (font : Vector Byte 80) (img : List Byte), img.length ≤ 3584 →
    ∃ m, transact (.load img) (Session.start font) = .ok (m, .done) ∧ m.phase = .loaded ∧
      m.machine = { resetWith font with mem := m.machine.mem } ∧ m.machine.mem.wf = true ∧
      (∀ j : Fin 80, m.machine.byteAt (0x50 + j.val) = font[j.val]) ∧
      (∀ (j : Nat) (h : j < img.length), m.machine.byteAt (0x200 + j) = img[j]) ∧
      (∀ a, (a < 0x50 ∨ (0x9F < a ∧ a < 0x200) ∨ 0x200 + img.length ≤ a) → m.machine.byteAt a = 0)

/-- 70_reset_and_hazards.md R222: a machine stepped without a LOAD fetches 0x0000 and faults with UnknownOpcode. -/
def Obligations.UnloadedMachineFaults : Prop :=
  step State.reset = .fault (.unknownOpcode 0 { State.reset with pc := 0x202 })

/-- 70_reset_and_hazards.md R224, decision D23: a LOAD of more than 3584 bytes is refused, and once a LOAD or a STEP
has happened no LOAD is accepted until a RESET (log 8). -/
def Obligations.LoadHappensOnceBeforeTheFirstStep : Prop :=
  (∀ (img : List Byte) (m : Session), 3584 < img.length → ∃ r, transact (.load img) m = .error r) ∧
  (∀ (t : Transaction) (m m' m'' : Session) (r : Response) (ts : List Transaction) (img : List Byte),
    (t = .step ∨ ∃ im, t = .load im) → transact t m = .ok (m', r) → (∀ u ∈ ts, ∀ font, u ≠ .reset font) →
    transactAll ts m' = .ok m'' → transact (.load img) m'' = .error .loadOutOfPlace)

/-- 60_exceptions.md R193, R194: a STEP that faults leaves the machine in the state of the fault, and until a RESET no
STEP is accepted again (decision D9, logs 7, 8). -/
def Obligations.FaultedMachineStaysStopped : Prop :=
  ∀ (m m' : Session) (f : Fault), transact .step m = .ok (m', .fault f) →
    m' = ⟨.stopped, f.leftState⟩ ∧
    ∀ (ts : List Transaction) (m'' : Session), (∀ u ∈ ts, ∀ font, u ≠ .reset font) →
      transactAll ts m' = .ok m'' → transact .step m'' = .error .stepAfterFault

/-- 70_reset_and_hazards.md R226: the convention for a successful end of a run, which is the model's choice (decision
D27, log 17), is stable: at it any number of steps changes nothing but the latch, and no transaction but RESET and LOAD
leaves it or answers a fault. -/
def Obligations.EndedRunStaysEnded : Prop :=
  (∀ (s : State) (n : Nat), s.ended = true → Host.Core.run core (n + 1) s = .next { s with opcode := s.fetchedWord }) ∧
  (∀ (t : Transaction) (m m' : Session) (r : Response), m.endedWell = true → transact t m = .ok (m', r) →
    (∀ font, t ≠ .reset font) → (∀ img, t ≠ .load img) → m'.endedWell = true ∧ ∀ f, r ≠ .fault f)

/-! ### The whole machine -/

/-- The invariant holds after RESET, with every font table. -/
def Obligations.ResetMeetsTheInvariant : Prop := State.reset.Inv ∧ ∀ font, (resetWith font).Inv

/-- Every step keeps the invariant, whether it completes or faults: memory stays canonical (log 13), `pc` stays at most
0x10FE (10_state.md R24) and every stack entry stays at most 4096 (decision D3). -/
def Obligations.StepKeepsTheInvariant : Prop :=
  ∀ s t : State, s.Inv → leaves (step s) = some t → t.Inv

/-- Every sequence of transactions from a RESET keeps the invariant: whatever image is loaded, whatever keys and ticks
the host gives and wherever a step faults (00_scope.md R10, 10_state.md R24). -/
def Obligations.SessionsKeepTheInvariant : Prop :=
  ∀ (font : Vector Byte 80) (ts : List Transaction) (m : Session),
    transactAll ts (Session.start font) = .ok m → m.machine.Inv

/-- When an instruction completes: exactly under the conditions of 60_exceptions.md R192 and 70_reset_and_hazards.md
R227; and no instruction and no step is ever refused. -/
def Obligations.CompletesExactlyWhenRunnable : Prop :=
  (∀ (i : Instr) (s : State), (∃ t, exec i s = .next t) ↔ Runnable i s) ∧
  (∀ (i : Instr) (s : State) (r : Refusal), exec i s ≠ .refused r) ∧
  (∀ (s : State) (r : Refusal), step s ≠ .refused r)

/-- 60_exceptions.md R192: which instruction can raise which fault. -/
def Obligations.FaultsByInstruction : Prop :=
  ∀ (i : Instr) (s : State) (f : Fault), exec i s = .fault f →
    (∃ nnn, i = .call nnn ∧ f = .stackOverflow s) ∨
    (i = .ret ∧ f = .stackUnderflow s) ∨
    (∃ x y n, i = .drw x y n ∧ (f.code = 3 ∨ f.code = 6)) ∨
    (∃ x, (i = .ldB x ∨ i = .storeRegs x ∨ i = .loadRegs x) ∧ f.code = 3) ∨
    (∃ x, (i = .skp x ∨ i = .sknp x) ∧ f = .keypadOutOfBounds (s.getV x).toNat s)

/-- 10_state.md R20, the column "written by": which instructions can change which piece of state, whether they complete
or fault. Memory and the display change for no other instruction, the keypad and the latch for none. -/
def Obligations.OnlyTheNamedInstructionsWrite : Prop :=
  ∀ (i : Instr) (s t : State), leaves (exec i s) = some t →
    (t.mem ≠ s.mem → ∃ x, i = .ldB x ∨ i = .storeRegs x) ∧
    (t.I ≠ s.I → (∃ nnn, i = .ldI nnn) ∨ ∃ x, i = .addI x ∨ i = .ldF x) ∧
    (t.pc ≠ s.pc → i = .ret ∨ (∃ nnn, i = .jp nnn ∨ i = .jpV0 nnn ∨ i = .call nnn) ∨
      (∃ x kk, i = .seImm x kk ∨ i = .sneImm x kk) ∨ (∃ x y, i = .seReg x y ∨ i = .sneReg x y) ∨
      ∃ x, i = .skp x ∨ i = .sknp x ∨ i = .ldVxK x) ∧
    (t.stack ≠ s.stack → ∃ nnn, i = .call nnn) ∧
    (t.sp ≠ s.sp → i = .ret ∨ ∃ nnn, i = .call nnn) ∧
    (t.DT ≠ s.DT → ∃ x, i = .ldDTVx x) ∧
    (t.ST ≠ s.ST → ∃ x, i = .ldSTVx x) ∧
    (t.display ≠ s.display → i = .cls ∨ ∃ x y n, i = .drw x y n) ∧
    (t.draws ≠ s.draws → ∃ x kk, i = .rnd x kk) ∧
    t.keypad = s.keypad ∧ t.opcode = s.opcode

/-- The frame of the registers and of memory, whether the instruction completes or faults: a register that is no
destination of the instruction (10_state.md R23: `VF` is one only for the six flag writers, decision D22) keeps its
value, and every byte of memory outside the bytes it stores to reads as before. -/
def Obligations.RegistersAndMemoryOutsideTheDestinationStay : Prop :=
  ∀ (i : Instr) (s t : State), leaves (exec i s) = some t →
    (∀ k, mayWrite i k = false → t.getV k = s.getV k) ∧
    (∀ x, i = .ldB x → ∀ a, (a < indexAddr s 0 ∨ indexAddr s 3 ≤ a) → t.byteAt a = s.byteAt a) ∧
    (∀ x, i = .storeRegs x → ∀ a, (a < indexAddr s 0 ∨ indexAddr s (x.val + 1) ≤ a) → t.byteAt a = s.byteAt a) ∧
    ((∀ x, i ≠ .ldB x ∧ i ≠ .storeRegs x) → ∀ a, t.byteAt a = s.byteAt a)

/-- 10_state.md R30, 44_keypad_timers.md R175: no instruction reads the latch as data and none reads the sound timer:
changing both before an instruction changes nothing but themselves after it. -/
def Obligations.LatchAndSoundTimerAreNeverRead : Prop :=
  ∀ (i : Instr) (s t : State) (w : Word) (v : Byte), exec i s = .next t →
    exec i { s with opcode := w, ST := v } =
      .next { t with opcode := w, ST := if ∃ x, i = .ldSTVx x then t.ST else v }

/-- 10_state.md R25: how a completed step leaves `pc`: two more than before, four more or two more for a skip, back
where it was or two more for the key wait; jumps, calls and returns apart. -/
def Obligations.StepAdvancesPcByInstruction : Prop :=
  ∀ (s t : State) (i : Instr), step s = .next t → decodeWord s.fetchedWord = .ok i →
    i = .ret ∨ (∃ nnn, i = .jp nnn ∨ i = .jpV0 nnn ∨ i = .call nnn) ∨
    ((∃ x kk, i = .seImm x kk ∨ i = .sneImm x kk) ∨ (∃ x y, i = .seReg x y ∨ i = .sneReg x y) ∨
      (∃ x, i = .skp x ∨ i = .sknp x)) ∧ (t.pc.toNat = s.pc.toNat + 4 ∨ t.pc.toNat = s.pc.toNat + 2) ∨
    (∃ x, i = .ldVxK x) ∧ (t.pc = s.pc ∨ t.pc.toNat = s.pc.toNat + 2) ∨
    t.pc.toNat = s.pc.toNat + 2
end

