-- ==== Sys2Proof/Laws/Decode.lean ====
section
/-! SUPPORT. The fields of an encoded word are the fields it was built from, and a word is built from its fields
(30_encoding.md R71, R73). -/

namespace Sys2Proof

@[simp] theorem regOf_regField (r : Reg) : regOf (regField r) = r := rfl
@[simp] theorem regField_regOf (f : BitVec 4) : regField (regOf f) = f := rfl

/-- Bit `i` of `len` bits taken from bit `start` on. -/
theorem getLsbD_field {n : Nat} (v : BitVec n) (start len i : Nat) (hi : i < len) :
    (v.extractLsb' start len).getLsbD i = v.getLsbD (start + i) := by
  simp [hi]

/-! ### Bits of the three formats -/

theorem getLsbD_formatNNN (op : BitVec 4) (nnn : Addr12) (i : Nat) :
    (formatNNN op nnn).getLsbD i = if i < 12 then nnn.getLsbD i else op.getLsbD (i - 12) := by
  change (op ++ nnn : BitVec (4 + 12)).getLsbD i = _
  rw [BitVec.getLsbD_append]

theorem getLsbD_formatXKK (op : BitVec 4) (x : Reg) (kk : Byte) (i : Nat) :
    (formatXKK op x kk).getLsbD i =
      if i < 8 then kk.getLsbD i else if i - 8 < 4 then (regField x).getLsbD (i - 8) else op.getLsbD (i - 8 - 4) := by
  change (op ++ regField x ++ kk : BitVec (4 + 4 + 8)).getLsbD i = _
  rw [BitVec.getLsbD_append, BitVec.getLsbD_append]

theorem getLsbD_formatXY (op : BitVec 4) (x y : Reg) (n : BitVec 4) (i : Nat) :
    (formatXY op x y n).getLsbD i =
      if i < 4 then n.getLsbD i else if i - 4 < 4 then (regField y).getLsbD (i - 4)
      else if i - 4 - 4 < 4 then (regField x).getLsbD (i - 4 - 4) else op.getLsbD (i - 4 - 4 - 4) := by
  change (op ++ regField x ++ regField y ++ n : BitVec (4 + 4 + 4 + 4)).getLsbD i = _
  rw [BitVec.getLsbD_append, BitVec.getLsbD_append, BitVec.getLsbD_append]

theorem getLsbD_wordOf (hi lo : Byte) (i : Nat) :
    (wordOf hi lo).getLsbD i = if i < 8 then lo.getLsbD i else hi.getLsbD (i - 8) := by
  change (hi ++ lo : BitVec (8 + 8)).getLsbD i = _
  rw [BitVec.getLsbD_append]

/-! ### Fields of the three formats -/

@[simp] theorem fieldOp_formatNNN (op : BitVec 4) (nnn : Addr12) : fieldOp (formatNNN op nnn) = op := by
  refine BitVec.eq_of_getLsbD_eq fun i hi => ?_
  rw [fieldOp, getLsbD_field _ _ _ _ hi, getLsbD_formatNNN]
  repeat' split
  all_goals first | omega | (congr 1; omega)

@[simp] theorem fieldNNN_formatNNN (op : BitVec 4) (nnn : Addr12) : fieldNNN (formatNNN op nnn) = nnn := by
  refine BitVec.eq_of_getLsbD_eq fun i hi => ?_
  rw [fieldNNN, getLsbD_field _ _ _ _ hi, getLsbD_formatNNN]
  repeat' split
  all_goals first | omega | (congr 1; omega)

@[simp] theorem fieldOp_formatXKK (op : BitVec 4) (x : Reg) (kk : Byte) : fieldOp (formatXKK op x kk) = op := by
  refine BitVec.eq_of_getLsbD_eq fun i hi => ?_
  rw [fieldOp, getLsbD_field _ _ _ _ hi, getLsbD_formatXKK]
  repeat' split
  all_goals first | omega | (congr 1; omega)

@[simp] theorem fieldX_formatXKK (op : BitVec 4) (x : Reg) (kk : Byte) : fieldX (formatXKK op x kk) = regField x := by
  refine BitVec.eq_of_getLsbD_eq fun i hi => ?_
  rw [fieldX, getLsbD_field _ _ _ _ hi, getLsbD_formatXKK]
  repeat' split
  all_goals first | omega | (congr 1; omega)

@[simp] theorem fieldKK_formatXKK (op : BitVec 4) (x : Reg) (kk : Byte) : fieldKK (formatXKK op x kk) = kk := by
  refine BitVec.eq_of_getLsbD_eq fun i hi => ?_
  rw [fieldKK, getLsbD_field _ _ _ _ hi, getLsbD_formatXKK]
  repeat' split
  all_goals first | omega | (congr 1; omega)

@[simp] theorem fieldOp_formatXY (op : BitVec 4) (x y : Reg) (n : BitVec 4) : fieldOp (formatXY op x y n) = op := by
  refine BitVec.eq_of_getLsbD_eq fun i hi => ?_
  rw [fieldOp, getLsbD_field _ _ _ _ hi, getLsbD_formatXY]
  repeat' split
  all_goals first | omega | (congr 1; omega)

@[simp] theorem fieldX_formatXY (op : BitVec 4) (x y : Reg) (n : BitVec 4) : fieldX (formatXY op x y n) = regField x := by
  refine BitVec.eq_of_getLsbD_eq fun i hi => ?_
  rw [fieldX, getLsbD_field _ _ _ _ hi, getLsbD_formatXY]
  repeat' split
  all_goals first | omega | (congr 1; omega)

@[simp] theorem fieldY_formatXY (op : BitVec 4) (x y : Reg) (n : BitVec 4) : fieldY (formatXY op x y n) = regField y := by
  refine BitVec.eq_of_getLsbD_eq fun i hi => ?_
  rw [fieldY, getLsbD_field _ _ _ _ hi, getLsbD_formatXY]
  repeat' split
  all_goals first | omega | (congr 1; omega)

@[simp] theorem fieldN_formatXY (op : BitVec 4) (x y : Reg) (n : BitVec 4) : fieldN (formatXY op x y n) = n := by
  refine BitVec.eq_of_getLsbD_eq fun i hi => ?_
  rw [fieldN, getLsbD_field _ _ _ _ hi, getLsbD_formatXY]
  repeat' split
  all_goals first | omega | (congr 1; omega)

/-! ### A word from its fields -/

theorem formatNNN_fields (w : Word) : formatNNN (fieldOp w) (fieldNNN w) = w := by
  refine BitVec.eq_of_getLsbD_eq fun i hi => ?_
  rw [getLsbD_formatNNN]
  simp only [fieldOp, fieldNNN]
  repeat' split
  all_goals rw [getLsbD_field _ _ _ _ (by omega)]; congr 1; omega

theorem formatXKK_fields (w : Word) : formatXKK (fieldOp w) (regOf (fieldX w)) (fieldKK w) = w := by
  refine BitVec.eq_of_getLsbD_eq fun i hi => ?_
  rw [getLsbD_formatXKK]
  simp only [regField_regOf, fieldOp, fieldX, fieldKK]
  repeat' split
  all_goals rw [getLsbD_field _ _ _ _ (by omega)]; congr 1; omega

theorem formatXY_fields (w : Word) : formatXY (fieldOp w) (regOf (fieldX w)) (regOf (fieldY w)) (fieldN w) = w := by
  refine BitVec.eq_of_getLsbD_eq fun i hi => ?_
  rw [getLsbD_formatXY]
  simp only [regField_regOf, fieldOp, fieldX, fieldY, fieldN]
  repeat' split
  all_goals rw [getLsbD_field _ _ _ _ (by omega)]; congr 1; omega

/-- The two bytes of a word make the word again (20_memory.md R55). -/
theorem wordOf_wordBytes (w : Word) : wordOf (w.extractLsb' 8 8) (w.extractLsb' 0 8) = w := by
  refine BitVec.eq_of_getLsbD_eq fun i hi => ?_
  rw [getLsbD_wordOf]
  split
  all_goals rw [getLsbD_field _ _ _ _ (by omega)]; congr 1; omega

/-- Decoding the bytes of a word is decoding the word. -/
theorem decode_wordBytes (w : Word) (rest : List Byte) :
    decode (wordBytes w ++ rest) = (decodeWord w).map fun i => (i, rest) := by
  simp only [wordBytes, List.cons_append, List.nil_append, decode, wordOf_wordBytes]
  cases decodeWord w <;> rfl

/-- A word is decoded exactly to the instruction selected. -/
theorem decodeWord_eq_ok {w : Word} {i : Instr} : decodeWord w = .ok i ↔ selectInstr w = some i := by
  unfold decodeWord
  cases selectInstr w <;> simp

/-- A word is rejected exactly when nothing is selected, and then by its own name. -/
theorem decodeWord_eq_error {w : Word} {e : DecodeError} :
    decodeWord w = .error e ↔ selectInstr w = none ∧ e = .unknownOpcode w := by
  unfold decodeWord
  cases selectInstr w <;> simp [eq_comm]

end Sys2Proof
end

