-- ==== Sys2Proof/Laws/Memory.lean ====
section
/-! SUPPORT. Memory laws: a read after a write, and that every memory operation keeps the canonical form. -/

namespace Sys2Proof.Machine

/-- Reading any other address passes over the head entry. -/
theorem Memory.read_cons_ne {k : Nat} {v : Byte} {rest : Memory} {a : Nat} (h : a ≠ k) :
    Memory.read ((k, v) :: rest) a = Memory.read rest a := by
  simp [Memory.read, h]

/-- A canonical form from a later address on is one from an earlier address on. -/
theorem Memory.wfFrom_mono {lo lo' : Nat} (h : lo' ≤ lo) : ∀ {m : Memory}, Memory.wfFrom lo m = true → Memory.wfFrom lo' m = true
  | [], _ => rfl
  | (k, v) :: rest, hm => by
    simp only [Memory.wfFrom, Bool.and_eq_true, decide_eq_true_eq] at hm ⊢
    exact ⟨⟨⟨by omega, hm.1.1.2⟩, hm.1.2⟩, hm.2⟩

/-- An address before the first entry is not listed. -/
theorem Memory.read_below : ∀ {m : Memory} {lo a : Nat}, Memory.wfFrom lo m = true → a < lo → Memory.read m a = resetByte a
  | [], _, _, _, _ => rfl
  | (k, v) :: rest, lo, a, hm, ha => by
    simp only [Memory.wfFrom, Bool.and_eq_true, decide_eq_true_eq] at hm
    rw [Memory.read_cons_ne (by omega)]
    exact Memory.read_below hm.2 (by omega)

/-- Reading another address passes over an entry. -/
theorem Memory.read_entry_ne {a c : Nat} {b : Byte} {rest : Memory} (h : c ≠ a) :
    Memory.read (Memory.entry a b rest) c = Memory.read rest c := by
  unfold Memory.entry
  split
  · rfl
  · exact Memory.read_cons_ne h

/-- A write leaves every other address alone, whatever the form of the list. -/
theorem Memory.read_write_ne {c a : Nat} (h : c ≠ a) (b : Byte) : ∀ m : Memory, (Memory.write m a b).read c = m.read c
  | [] => by simp only [Memory.write, Memory.read_entry_ne h]
  | (k, v) :: rest => by
    simp only [Memory.write]
    split
    · exact Memory.read_entry_ne h
    · split
      · next hk => rw [Memory.read_entry_ne h, Memory.read_cons_ne (hk ▸ h)]
      · simp only [Memory.read, Memory.read_write_ne h b rest]

/-- Reading an entry whose address is not listed after it. -/
theorem Memory.read_entry_self {a : Nat} {b : Byte} {rest : Memory} (h : Memory.wfFrom (a + 1) rest = true) :
    Memory.read (Memory.entry a b rest) a = b := by
  unfold Memory.entry
  split
  · next hb => rw [Memory.read_below h (by omega), hb]
  · simp [Memory.read]

/-- A read after a write to the same address gives the byte written. -/
theorem Memory.read_write_self (a : Nat) (b : Byte) :
    ∀ {m : Memory} {lo : Nat}, Memory.wfFrom lo m = true → (Memory.write m a b).read a = b
  | [], _, _ => Memory.read_entry_self (rest := []) rfl
  | (k, v) :: rest, lo, hm => by
    have hm' := hm
    simp only [Memory.wfFrom, Bool.and_eq_true, decide_eq_true_eq] at hm
    simp only [Memory.write]
    split
    · next hk =>
      refine Memory.read_entry_self ?_
      simp only [Memory.wfFrom, Bool.and_eq_true, decide_eq_true_eq]
      exact ⟨⟨⟨by omega, hm.1.1.2⟩, hm.1.2⟩, hm.2⟩
    · split
      · next hk => exact Memory.read_entry_self (hk ▸ hm.2)
      · next hk => rw [Memory.read_cons_ne hk, Memory.read_write_self a b hm.2]

/-- Reading after a write, at any address. -/
theorem Memory.read_write {m : Memory} (hm : m.wf = true) (a c : Nat) (b : Byte) :
    (Memory.write m a b).read c = if c = a then b else m.read c := by
  split
  · next h => rw [h]; exact Memory.read_write_self a b hm
  · next h => exact Memory.read_write_ne h b m

/-- An entry before a canonical list keeps the form. -/
theorem Memory.wfFrom_entry {lo a : Nat} {b : Byte} {rest : Memory} (hlo : lo ≤ a) (ha : a < 4096)
    (h : Memory.wfFrom (a + 1) rest = true) : Memory.wfFrom lo (Memory.entry a b rest) = true := by
  unfold Memory.entry
  split
  · exact Memory.wfFrom_mono (by omega) h
  · next hb => simp [Memory.wfFrom, hlo, ha, h, hb]

/-- A write at an address of the memory keeps the canonical form. -/
theorem Memory.wfFrom_write {a : Nat} (ha : a < 4096) (b : Byte) :
    ∀ {m : Memory} {lo : Nat}, lo ≤ a → Memory.wfFrom lo m = true → Memory.wfFrom lo (Memory.write m a b) = true
  | [], _, hlo, _ => Memory.wfFrom_entry hlo ha rfl
  | (k, v) :: rest, lo, hlo, hm => by
    have hm' := hm
    simp only [Memory.wfFrom, Bool.and_eq_true, decide_eq_true_eq] at hm
    simp only [Memory.write]
    split
    · next hk =>
      refine Memory.wfFrom_entry hlo ha ?_
      simp only [Memory.wfFrom, Bool.and_eq_true, decide_eq_true_eq]
      exact ⟨⟨⟨by omega, hm.1.1.2⟩, hm.1.2⟩, hm.2⟩
    · split
      · next hk => exact Memory.wfFrom_entry hlo ha (hk ▸ hm.2)
      · next hk =>
        simp only [Memory.wfFrom, Bool.and_eq_true, decide_eq_true_eq]
        exact ⟨hm.1, Memory.wfFrom_write ha b (by omega) hm.2⟩

/-- A write at an address of the memory keeps the canonical form. -/
theorem Memory.wf_write {m : Memory} (hm : m.wf = true) {a : Nat} (ha : a ≤ 4095) (b : Byte) :
    (Memory.write m a b).wf = true :=
  Memory.wfFrom_write (by omega) b (Nat.zero_le a) hm

/-- Writing a list of bytes inside the memory keeps the canonical form. -/
theorem Memory.wf_writeList : ∀ {bs : List Byte} {m : Memory} {a : Nat}, m.wf = true → a + bs.length ≤ 4096 →
    (Memory.writeList m a bs).wf = true
  | [], _, _, hm, _ => hm
  | b :: bs, m, a, hm, h => by
    simp only [List.length_cons] at h
    rw [Memory.writeList]
    exact Memory.wf_writeList (Memory.wf_write hm (by omega) b) (by omega)

/-- Writing a list of bytes leaves the addresses outside it alone. -/
theorem Memory.read_writeList_ne : ∀ {bs : List Byte} {m : Memory} {a c : Nat}, (c < a ∨ a + bs.length ≤ c) →
    (Memory.writeList m a bs).read c = m.read c
  | [], _, _, _, _ => rfl
  | b :: bs, m, a, c, h => by
    simp only [List.length_cons] at h
    rw [Memory.writeList, Memory.read_writeList_ne (by omega), Memory.read_write_ne (by omega)]

/-- Reading inside a list of bytes that was written. -/
theorem Memory.read_writeList : ∀ {bs : List Byte} {m : Memory} {a : Nat}, m.wf = true → a + bs.length ≤ 4096 →
    ∀ (j : Nat) (hj : j < bs.length), (Memory.writeList m a bs).read (a + j) = bs[j]
  | b :: bs, m, a, hm, h, 0, _ => by
    rw [Memory.writeList, Memory.read_writeList_ne (by omega), Nat.add_zero, List.getElem_cons_zero]
    exact Memory.read_write_self a b hm
  | b :: bs, m, a, hm, h, j + 1, hj => by
    simp only [List.length_cons] at h hj
    rw [Memory.writeList, show a + (j + 1) = a + 1 + j by omega]
    exact Memory.read_writeList (Memory.wf_write hm (by omega) b) (by omega) j (by omega)

/-- Two canonical memories are equal when every byte is: the form is canonical. -/
theorem Memory.eq_of_read_eq : ∀ {m m' : Memory} {lo : Nat}, Memory.wfFrom lo m = true → Memory.wfFrom lo m' = true →
    (∀ a, m.read a = m'.read a) → m = m'
  | [], [], _, _, _, _ => rfl
  | [], (k, v) :: rest, lo, _, hm', h => by
    simp only [Memory.wfFrom, Bool.and_eq_true, decide_eq_true_eq, bne_iff_ne] at hm'
    exact absurd ((h k).symm.trans rfl) (by simpa [Memory.read] using hm'.1.2)
  | (k, v) :: rest, [], lo, hm, _, h => by
    simp only [Memory.wfFrom, Bool.and_eq_true, decide_eq_true_eq, bne_iff_ne] at hm
    exact absurd ((h k).trans rfl) (by simpa [Memory.read] using hm.1.2)
  | (k, v) :: rest, (k', v') :: rest', lo, hm, hm', h => by
    simp only [Memory.wfFrom, Bool.and_eq_true, decide_eq_true_eq, bne_iff_ne] at hm hm'
    have hk : k = k' := by
      rcases Nat.lt_trichotomy k k' with hlt | heq | hgt
      · have := h k
        rw [Memory.read_cons_ne (k := k') (by omega), Memory.read_below hm'.2 (by omega)] at this
        exact absurd this (by simpa [Memory.read] using hm.1.2)
      · exact heq
      · have := h k'
        rw [Memory.read_cons_ne (k := k) (by omega), Memory.read_below hm.2 (by omega)] at this
        exact absurd this.symm (by simpa [Memory.read] using hm'.1.2)
    subst hk
    have hv : v = v' := by simpa [Memory.read] using h k
    subst hv
    have : rest = rest' := by
      refine Memory.eq_of_read_eq hm.2 hm'.2 fun a => ?_
      by_cases ha : a = k
      · rw [ha, Memory.read_below hm.2 (by omega), Memory.read_below hm'.2 (by omega)]
      · simpa [Memory.read, ha] using h a
    rw [this]

/-- Reset memory is canonical. -/
@[simp] theorem reset_mem_wf : State.reset.mem.wf = true := rfl

/-- Reset memory holds the reset contents. -/
@[simp] theorem reset_byteAt (a : Nat) : State.reset.byteAt a = resetByte a := rfl

/-- LOAD of a legal image keeps the canonical form. -/
theorem load_mem_wf {s : State} (hm : s.mem.wf = true) {img : List Byte} (h : img.length ≤ Config.imageLimit) :
    (load img s).mem.wf = true :=
  Memory.wf_writeList hm (by simp only [Config.programBase, Config.imageLimit] at *; omega)

/-- RESET with any font leaves a canonical memory. -/
theorem resetWith_mem_wf (font : Vector Byte 80) : (resetWith font).mem.wf = true :=
  Memory.wf_writeList rfl (by simp [fontBase])

/-- Placing a word keeps the canonical form. -/
theorem placeWord_mem_wf {s : State} (hm : s.mem.wf = true) (w : Word) : (s.placeWord w).mem.wf = true := by
  refine Memory.wf_writeList hm ?_
  simp only [wordBytes, List.length_cons, List.length_nil]
  split
  · omega
  · simp [Config.programBase]

end Sys2Proof.Machine
end

