-- ==== Sys2Proof/Laws/State.lean ====
section
/-! SUPPORT. One lemma per field per named update of the state, so that no proof unfolds a record update. -/

namespace Sys2Proof.Machine

/-! ### setV -/

@[simp] theorem State.setV_mem (s : State) (x : Reg) (v : Byte) : (s.setV x v).mem = s.mem := rfl
@[simp] theorem State.setV_I (s : State) (x : Reg) (v : Byte) : (s.setV x v).I = s.I := rfl
@[simp] theorem State.setV_pc (s : State) (x : Reg) (v : Byte) : (s.setV x v).pc = s.pc := rfl
@[simp] theorem State.setV_stack (s : State) (x : Reg) (v : Byte) : (s.setV x v).stack = s.stack := rfl
@[simp] theorem State.setV_sp (s : State) (x : Reg) (v : Byte) : (s.setV x v).sp = s.sp := rfl
@[simp] theorem State.setV_DT (s : State) (x : Reg) (v : Byte) : (s.setV x v).DT = s.DT := rfl
@[simp] theorem State.setV_ST (s : State) (x : Reg) (v : Byte) : (s.setV x v).ST = s.ST := rfl
@[simp] theorem State.setV_display (s : State) (x : Reg) (v : Byte) : (s.setV x v).display = s.display := rfl
@[simp] theorem State.setV_keypad (s : State) (x : Reg) (v : Byte) : (s.setV x v).keypad = s.keypad := rfl
@[simp] theorem State.setV_opcode (s : State) (x : Reg) (v : Byte) : (s.setV x v).opcode = s.opcode := rfl
@[simp] theorem State.setV_draws (s : State) (x : Reg) (v : Byte) : (s.setV x v).draws = s.draws := rfl

/-! ### setVF -/

@[simp] theorem State.setVF_mem (s : State) (v : Byte) : (s.setVF v).mem = s.mem := rfl
@[simp] theorem State.setVF_I (s : State) (v : Byte) : (s.setVF v).I = s.I := rfl
@[simp] theorem State.setVF_pc (s : State) (v : Byte) : (s.setVF v).pc = s.pc := rfl
@[simp] theorem State.setVF_stack (s : State) (v : Byte) : (s.setVF v).stack = s.stack := rfl
@[simp] theorem State.setVF_sp (s : State) (v : Byte) : (s.setVF v).sp = s.sp := rfl
@[simp] theorem State.setVF_DT (s : State) (v : Byte) : (s.setVF v).DT = s.DT := rfl
@[simp] theorem State.setVF_ST (s : State) (v : Byte) : (s.setVF v).ST = s.ST := rfl
@[simp] theorem State.setVF_display (s : State) (v : Byte) : (s.setVF v).display = s.display := rfl
@[simp] theorem State.setVF_keypad (s : State) (v : Byte) : (s.setVF v).keypad = s.keypad := rfl
@[simp] theorem State.setVF_opcode (s : State) (v : Byte) : (s.setVF v).opcode = s.opcode := rfl
@[simp] theorem State.setVF_draws (s : State) (v : Byte) : (s.setVF v).draws = s.draws := rfl

/-! ### setPc -/

@[simp] theorem State.setPc_mem (s : State) (w : Word) : (s.setPc w).mem = s.mem := rfl
@[simp] theorem State.setPc_V (s : State) (w : Word) : (s.setPc w).V = s.V := rfl
@[simp] theorem State.setPc_I (s : State) (w : Word) : (s.setPc w).I = s.I := rfl
@[simp] theorem State.setPc_stack (s : State) (w : Word) : (s.setPc w).stack = s.stack := rfl
@[simp] theorem State.setPc_sp (s : State) (w : Word) : (s.setPc w).sp = s.sp := rfl
@[simp] theorem State.setPc_DT (s : State) (w : Word) : (s.setPc w).DT = s.DT := rfl
@[simp] theorem State.setPc_ST (s : State) (w : Word) : (s.setPc w).ST = s.ST := rfl
@[simp] theorem State.setPc_display (s : State) (w : Word) : (s.setPc w).display = s.display := rfl
@[simp] theorem State.setPc_keypad (s : State) (w : Word) : (s.setPc w).keypad = s.keypad := rfl
@[simp] theorem State.setPc_opcode (s : State) (w : Word) : (s.setPc w).opcode = s.opcode := rfl
@[simp] theorem State.setPc_draws (s : State) (w : Word) : (s.setPc w).draws = s.draws := rfl

/-! ### setI -/

@[simp] theorem State.setI_mem (s : State) (w : Word) : (s.setI w).mem = s.mem := rfl
@[simp] theorem State.setI_V (s : State) (w : Word) : (s.setI w).V = s.V := rfl
@[simp] theorem State.setI_pc (s : State) (w : Word) : (s.setI w).pc = s.pc := rfl
@[simp] theorem State.setI_stack (s : State) (w : Word) : (s.setI w).stack = s.stack := rfl
@[simp] theorem State.setI_sp (s : State) (w : Word) : (s.setI w).sp = s.sp := rfl
@[simp] theorem State.setI_DT (s : State) (w : Word) : (s.setI w).DT = s.DT := rfl
@[simp] theorem State.setI_ST (s : State) (w : Word) : (s.setI w).ST = s.ST := rfl
@[simp] theorem State.setI_display (s : State) (w : Word) : (s.setI w).display = s.display := rfl
@[simp] theorem State.setI_keypad (s : State) (w : Word) : (s.setI w).keypad = s.keypad := rfl
@[simp] theorem State.setI_opcode (s : State) (w : Word) : (s.setI w).opcode = s.opcode := rfl
@[simp] theorem State.setI_draws (s : State) (w : Word) : (s.setI w).draws = s.draws := rfl

/-! ### skipIf -/

@[simp] theorem State.skipIf_mem (s : State) (c : Bool) : (s.skipIf c).mem = s.mem := by cases c <;> rfl
@[simp] theorem State.skipIf_V (s : State) (c : Bool) : (s.skipIf c).V = s.V := by cases c <;> rfl
@[simp] theorem State.skipIf_I (s : State) (c : Bool) : (s.skipIf c).I = s.I := by cases c <;> rfl
@[simp] theorem State.skipIf_stack (s : State) (c : Bool) : (s.skipIf c).stack = s.stack := by cases c <;> rfl
@[simp] theorem State.skipIf_sp (s : State) (c : Bool) : (s.skipIf c).sp = s.sp := by cases c <;> rfl
@[simp] theorem State.skipIf_DT (s : State) (c : Bool) : (s.skipIf c).DT = s.DT := by cases c <;> rfl
@[simp] theorem State.skipIf_ST (s : State) (c : Bool) : (s.skipIf c).ST = s.ST := by cases c <;> rfl
@[simp] theorem State.skipIf_display (s : State) (c : Bool) : (s.skipIf c).display = s.display := by cases c <;> rfl
@[simp] theorem State.skipIf_keypad (s : State) (c : Bool) : (s.skipIf c).keypad = s.keypad := by cases c <;> rfl
@[simp] theorem State.skipIf_opcode (s : State) (c : Bool) : (s.skipIf c).opcode = s.opcode := by cases c <;> rfl
@[simp] theorem State.skipIf_draws (s : State) (c : Bool) : (s.skipIf c).draws = s.draws := by cases c <;> rfl

/-! ### flipCell -/

@[simp] theorem State.flipCell_mem (s : State) (row : Fin 32) (col : Fin 64) : (s.flipCell row col).mem = s.mem := rfl
@[simp] theorem State.flipCell_V (s : State) (row : Fin 32) (col : Fin 64) : (s.flipCell row col).V = s.V := rfl
@[simp] theorem State.flipCell_I (s : State) (row : Fin 32) (col : Fin 64) : (s.flipCell row col).I = s.I := rfl
@[simp] theorem State.flipCell_pc (s : State) (row : Fin 32) (col : Fin 64) : (s.flipCell row col).pc = s.pc := rfl
@[simp] theorem State.flipCell_stack (s : State) (row : Fin 32) (col : Fin 64) : (s.flipCell row col).stack = s.stack := rfl
@[simp] theorem State.flipCell_sp (s : State) (row : Fin 32) (col : Fin 64) : (s.flipCell row col).sp = s.sp := rfl
@[simp] theorem State.flipCell_DT (s : State) (row : Fin 32) (col : Fin 64) : (s.flipCell row col).DT = s.DT := rfl
@[simp] theorem State.flipCell_ST (s : State) (row : Fin 32) (col : Fin 64) : (s.flipCell row col).ST = s.ST := rfl
@[simp] theorem State.flipCell_keypad (s : State) (row : Fin 32) (col : Fin 64) : (s.flipCell row col).keypad = s.keypad := rfl
@[simp] theorem State.flipCell_opcode (s : State) (row : Fin 32) (col : Fin 64) : (s.flipCell row col).opcode = s.opcode := rfl
@[simp] theorem State.flipCell_draws (s : State) (row : Fin 32) (col : Fin 64) : (s.flipCell row col).draws = s.draws := rfl

/-! ### The fields an update writes -/

@[simp] theorem State.setPc_pc (s : State) (w : Word) : (s.setPc w).pc = w := rfl
@[simp] theorem State.setI_I (s : State) (w : Word) : (s.setI w).I = w := rfl
@[simp] theorem State.skipIf_pc (s : State) (c : Bool) : (s.skipIf c).pc = if c then s.pc + 2 else s.pc := by
  cases c <;> rfl
@[simp] theorem State.setVF_eq (s : State) (v : Byte) : s.setVF v = s.setV 15 v := rfl

/-! ### Registers -/

/-- A register after a register write. -/
@[simp] theorem State.getV_setV (s : State) (x y : Reg) (v : Byte) :
    (s.setV x v).getV y = if y = x then v else s.getV y := by
  simp only [State.getV, State.setV, Vector.getElem_set, Fin.ext_iff, eq_comm (a := x.val)]

/-- Two register files are equal when every register is. -/
theorem V_ext {v w : Vector Byte 16} (h : ∀ x : Reg, v[x.val] = w[x.val]) : v = w :=
  Vector.ext fun i hi => h ⟨i, hi⟩

@[simp] theorem State.getV_setPc (s : State) (w : Word) (y : Reg) : (s.setPc w).getV y = s.getV y := rfl
@[simp] theorem State.getV_setI (s : State) (w : Word) (y : Reg) : (s.setI w).getV y = s.getV y := rfl
@[simp] theorem State.getV_skipIf (s : State) (c : Bool) (y : Reg) : (s.skipIf c).getV y = s.getV y := by cases c <;> rfl
@[simp] theorem State.getV_flipCell (s : State) (row : Fin 32) (col : Fin 64) (y : Reg) : (s.flipCell row col).getV y = s.getV y := rfl

/-! ### Memory bytes, keys and cells -/

@[simp] theorem State.byteAt_setV (s : State) (x : Reg) (v : Byte) (n : Nat) : (s.setV x v).byteAt n = s.byteAt n := rfl
@[simp] theorem State.byteAt_setVF (s : State) (v : Byte) (n : Nat) : (s.setVF v).byteAt n = s.byteAt n := rfl
@[simp] theorem State.byteAt_setPc (s : State) (w : Word) (n : Nat) : (s.setPc w).byteAt n = s.byteAt n := rfl
@[simp] theorem State.byteAt_setI (s : State) (w : Word) (n : Nat) : (s.setI w).byteAt n = s.byteAt n := rfl
@[simp] theorem State.byteAt_skipIf (s : State) (c : Bool) (n : Nat) : (s.skipIf c).byteAt n = s.byteAt n := by cases c <;> rfl
@[simp] theorem State.byteAt_flipCell (s : State) (row : Fin 32) (col : Fin 64) (n : Nat) : (s.flipCell row col).byteAt n = s.byteAt n := rfl
@[simp] theorem State.cell_setV (s : State) (x : Reg) (v : Byte) (r : Fin 32) (c' : Fin 64) : (s.setV x v).cell r c' = s.cell r c' := rfl
@[simp] theorem State.cell_setVF (s : State) (v : Byte) (r : Fin 32) (c' : Fin 64) : (s.setVF v).cell r c' = s.cell r c' := rfl
@[simp] theorem State.cell_setPc (s : State) (w : Word) (r : Fin 32) (c' : Fin 64) : (s.setPc w).cell r c' = s.cell r c' := rfl
@[simp] theorem State.cell_setI (s : State) (w : Word) (r : Fin 32) (c' : Fin 64) : (s.setI w).cell r c' = s.cell r c' := rfl
@[simp] theorem State.cell_skipIf (s : State) (c : Bool) (r : Fin 32) (c' : Fin 64) : (s.skipIf c).cell r c' = s.cell r c' := by cases c <;> rfl

/-- A cell after a cell is flipped. -/
@[simp] theorem State.cell_flipCell (s : State) (row r : Fin 32) (col c : Fin 64) :
    (s.flipCell row col).cell r c = (s.cell r c ^^ decide (r = row ∧ c = col)) := by
  simp only [State.cell, State.flipCell, Vector.getElem_set]
  by_cases hr : row.val = r.val
  · have : r = row := Fin.ext hr.symm
    subst this
    by_cases hc : col.val = c.val
    · have : c = col := Fin.ext hc.symm
      subst this
      simp
    · have : c ≠ col := fun h => hc (by rw [h])
      simp [hc, this]
  · have : r ≠ row := fun h => hr (by rw [h])
    simp [hr, this]

/-- Two displays are equal when every cell is. -/
theorem display_ext {d e : Display} (h : ∀ (r : Fin 32) (c : Fin 64), (d[r.val])[c.val] = (e[r.val])[c.val]) : d = e :=
  Vector.ext fun i hi => Vector.ext fun j hj => h ⟨i, hi⟩ ⟨j, hj⟩

/-! ### The host's transactions -/

@[simp] theorem tick_mem (s : State) : (tick s).mem = s.mem := rfl
@[simp] theorem tick_V (s : State) : (tick s).V = s.V := rfl
@[simp] theorem tick_I (s : State) : (tick s).I = s.I := rfl
@[simp] theorem tick_pc (s : State) : (tick s).pc = s.pc := rfl
@[simp] theorem tick_stack (s : State) : (tick s).stack = s.stack := rfl
@[simp] theorem tick_sp (s : State) : (tick s).sp = s.sp := rfl
@[simp] theorem tick_display (s : State) : (tick s).display = s.display := rfl
@[simp] theorem tick_keypad (s : State) : (tick s).keypad = s.keypad := rfl
@[simp] theorem tick_opcode (s : State) : (tick s).opcode = s.opcode := rfl
@[simp] theorem tick_draws (s : State) : (tick s).draws = s.draws := rfl
@[simp] theorem keys_mem (k : Vector Bool 16) (s : State) : (keys k s).mem = s.mem := rfl
@[simp] theorem keys_V (k : Vector Bool 16) (s : State) : (keys k s).V = s.V := rfl
@[simp] theorem keys_I (k : Vector Bool 16) (s : State) : (keys k s).I = s.I := rfl
@[simp] theorem keys_pc (k : Vector Bool 16) (s : State) : (keys k s).pc = s.pc := rfl
@[simp] theorem keys_stack (k : Vector Bool 16) (s : State) : (keys k s).stack = s.stack := rfl
@[simp] theorem keys_sp (k : Vector Bool 16) (s : State) : (keys k s).sp = s.sp := rfl
@[simp] theorem keys_DT (k : Vector Bool 16) (s : State) : (keys k s).DT = s.DT := rfl
@[simp] theorem keys_ST (k : Vector Bool 16) (s : State) : (keys k s).ST = s.ST := rfl
@[simp] theorem keys_display (k : Vector Bool 16) (s : State) : (keys k s).display = s.display := rfl
@[simp] theorem keys_opcode (k : Vector Bool 16) (s : State) : (keys k s).opcode = s.opcode := rfl
@[simp] theorem keys_draws (k : Vector Bool 16) (s : State) : (keys k s).draws = s.draws := rfl
@[simp] theorem load_V (img : List Byte) (s : State) : (load img s).V = s.V := rfl
@[simp] theorem load_I (img : List Byte) (s : State) : (load img s).I = s.I := rfl
@[simp] theorem load_pc (img : List Byte) (s : State) : (load img s).pc = s.pc := rfl
@[simp] theorem load_stack (img : List Byte) (s : State) : (load img s).stack = s.stack := rfl
@[simp] theorem load_sp (img : List Byte) (s : State) : (load img s).sp = s.sp := rfl
@[simp] theorem load_DT (img : List Byte) (s : State) : (load img s).DT = s.DT := rfl
@[simp] theorem load_ST (img : List Byte) (s : State) : (load img s).ST = s.ST := rfl
@[simp] theorem load_display (img : List Byte) (s : State) : (load img s).display = s.display := rfl
@[simp] theorem load_keypad (img : List Byte) (s : State) : (load img s).keypad = s.keypad := rfl
@[simp] theorem load_opcode (img : List Byte) (s : State) : (load img s).opcode = s.opcode := rfl
@[simp] theorem load_draws (img : List Byte) (s : State) : (load img s).draws = s.draws := rfl

end Sys2Proof.Machine
end

