-- ==== Sys2Proof/Laws/Ops.lean ====
section
/-! SUPPORT. One spec lemma per shared operation: what it answers, and on which states. -/

namespace Sys2Proof.Machine

/-! ### Sequencing -/

@[simp] theorem andThen_next (s : State) (f : State → Result) : andThen (.next s) f = f s := rfl
@[simp] theorem andThen_fault (r : Fault) (f : State → Result) : andThen (.fault r) f = .fault r := rfl
@[simp] theorem andThen_refused (r : Refusal) (f : State → Result) : andThen (.refused r) f = .refused r := rfl
@[simp] theorem andThen_raise (c : State → Fault) (s : State) (f : State → Result) : andThen (raise c s) f = raise c s := rfl
@[simp] theorem leaves_next (s : State) : leaves (.next s) = some s := rfl
@[simp] theorem leaves_fault (r : Fault) : leaves (.fault r) = some r.leftState := rfl
@[simp] theorem leaves_refused (r : Refusal) : leaves (.refused r) = none := rfl

/-- A sequence completes exactly when both parts do. -/
theorem andThen_eq_next {o : Result} {f : State → Result} {t : State} :
    andThen o f = .next t ↔ ∃ s, o = .next s ∧ f s = .next t := by
  cases o <;> simp [andThen]

/-- What a sequence leaves: what the first part leaves when it stops, else what the second leaves. -/
theorem leaves_andThen {o : Result} {f : State → Result} {t : State} (h : leaves (andThen o f) = some t) :
    (∃ s, o = .next s ∧ leaves (f s) = some t) ∨ (∃ r, o = .fault r ∧ t = r.leftState) := by
  cases o with
  | next s => exact .inl ⟨s, rfl, h⟩
  | fault r => exact .inr ⟨r, rfl, by simpa using h.symm⟩
  | refused r => simp at h

/-! ### Memory accesses -/

theorem memRead_of_le {a : Nat} (h : a ≤ 4095) (s : State) (f : Byte → Result) : memRead a s f = f (s.byteAt a) := by
  simp [memRead, h]

theorem memRead_of_gt {a : Nat} (h : 4095 < a) (s : State) (f : Byte → Result) :
    memRead a s f = .fault (.memoryOutOfBounds a s) := by
  simp [memRead, raise, Nat.not_le.mpr h]

theorem memWrite_of_le {a : Nat} (h : a ≤ 4095) (v : Byte) (s : State) :
    memWrite a v s = .next { s with mem := s.mem.write a v } := by
  simp [memWrite, h]

theorem memWrite_of_gt {a : Nat} (h : 4095 < a) (v : Byte) (s : State) :
    memWrite a v s = .fault (.memoryOutOfBounds a s) := by
  simp [memWrite, raise, Nat.not_le.mpr h]

/-- A store of bytes inside the memory completes and writes them all. -/
theorem storeBytes_fits : ∀ {bs : List Byte} {a : Nat} {s : State}, a + bs.length ≤ 4096 →
    storeBytes a bs s = .next { s with mem := s.mem.writeList a bs }
  | [], _, _, _ => rfl
  | b :: bs, a, s, h => by
    simp only [List.length_cons] at h
    rw [storeBytes, memWrite_of_le (by omega), andThen_next, storeBytes_fits (by omega)]
    rfl

/-- A store of bytes that passes the end of memory writes those inside and faults at address 4096. -/
theorem storeBytes_crosses : ∀ {bs : List Byte} {a : Nat} {s : State}, a ≤ 4096 → 4096 < a + bs.length →
    storeBytes a bs s = .fault (.memoryOutOfBounds 4096 { s with mem := s.mem.writeList a (bs.take (4096 - a)) })
  | [], a, s, h, h' => by simp at h'; omega
  | b :: bs, a, s, h, h' => by
    simp only [List.length_cons] at h'
    by_cases ha : a = 4096
    · subst ha
      rw [storeBytes, memWrite_of_gt (by omega)]
      rfl
    · rw [storeBytes, memWrite_of_le (by omega), andThen_next, storeBytes_crosses (by omega) (by omega)]
      rw [show 4096 - a = (4096 - (a + 1)) + 1 by omega, List.take_succ_cons]
      rfl

/-- A store of bytes that begins past the end of memory writes nothing and faults at its first address. -/
theorem storeBytes_outside {b : Byte} {bs : List Byte} {a : Nat} {s : State} (h : 4095 < a) :
    storeBytes a (b :: bs) s = .fault (.memoryOutOfBounds a s) := by
  rw [storeBytes, memWrite_of_gt h]
  rfl

/-- Bytes written at `I` upward are bytes stored there. -/
theorem bytesStored_writeList {s : State} (hw : s.mem.wf = true) {bs : List Byte} {f : Nat → Byte}
    (h : indexAddr s 0 + bs.length ≤ 4096) (hf : ∀ (j : Nat) (hj : j < bs.length), bs[j] = f j) :
    BytesStored s { s with mem := s.mem.writeList (indexAddr s 0) bs } bs.length f := by
  refine ⟨rfl, fun a => ?_⟩
  by_cases ha : indexAddr s 0 ≤ a ∧ a < indexAddr s bs.length
  · rw [if_pos ha]
    simp only [indexAddr, State.byteAt, Nat.add_zero] at *
    have := Memory.read_writeList hw h (a - s.I.toNat) (by omega)
    rwa [show s.I.toNat + (a - s.I.toNat) = a by omega, hf] at this
  · rw [if_neg ha]
    simp only [indexAddr, State.byteAt, Nat.add_zero] at *
    exact Memory.read_writeList_ne (by omega)

/-- A store of `m + 1` bytes at `I` upward: it completes and stores them all when the last address is in memory, and
otherwise faults at the first address outside, with the bytes before it stored. -/
theorem storeBytes_spec {s : State} (hw : s.mem.wf = true) {bs : List Byte} {f : Nat → Byte} {m : Nat}
    (hm : bs.length = m + 1) (hf : ∀ (j : Nat) (hj : j < bs.length), bs[j] = f j) :
    (indexAddr s m ≤ 4095 → ∃ t, storeBytes (indexAddr s 0) bs s = .next t ∧ BytesStored s t (m + 1) f) ∧
    (∀ k ≤ m, 4095 < indexAddr s k → (∀ j < k, indexAddr s j ≤ 4095) →
      ∃ t, storeBytes (indexAddr s 0) bs s = .fault (.memoryOutOfBounds (indexAddr s k) t) ∧ BytesStored s t k f) := by
  constructor
  · intro h
    have h' : indexAddr s 0 + bs.length ≤ 4096 := by
      simp only [indexAddr] at *
      omega
    exact ⟨_, storeBytes_fits h', hm ▸ bytesStored_writeList hw h' hf⟩
  · intro k hk h1 h2
    cases k with
    | zero =>
      cases bs with
      | nil => simp at hm
      | cons b bs =>
        refine ⟨s, storeBytes_outside h1, rfl, fun a => ?_⟩
        rw [if_neg (by omega)]
    | succ k =>
      have h3 := h2 k (by omega)
      have e : indexAddr s (k + 1) = 4096 := by
        simp only [indexAddr] at *
        omega
      have e' : 4096 - indexAddr s 0 = k + 1 := by
        simp only [indexAddr] at *
        omega
      have hl : (bs.take (k + 1)).length = k + 1 := by
        simp only [List.length_take]
        omega
      rw [e]
      refine ⟨_, storeBytes_crosses (by omega) (by omega), ?_⟩
      rw [e']
      have := bytesStored_writeList hw (bs := bs.take (k + 1)) (f := f) (by omega) fun j hj => by
        rw [List.getElem_take]
        exact hf j (by omega)
      rwa [hl] at this

/-- Everything a store of bytes leaves: memory is the only field that can differ, its form is kept, and the
addresses outside the bytes read as before. -/
theorem storeBytes_leaves : ∀ {bs : List Byte} {a : Nat} {s t : State}, leaves (storeBytes a bs s) = some t →
    t = { s with mem := t.mem } ∧ (s.mem.wf = true → t.mem.wf = true) ∧
    ∀ c, (c < a ∨ a + bs.length ≤ c) → t.byteAt c = s.byteAt c
  | [], a, s, t, h => by
    simp only [storeBytes, leaves_next, Option.some.injEq] at h
    subst h
    exact ⟨rfl, id, fun _ _ => rfl⟩
  | b :: bs, a, s, t, h => by
    by_cases ha : a ≤ 4095
    · rw [storeBytes, memWrite_of_le ha, andThen_next] at h
      obtain ⟨h1, h2, h3⟩ := storeBytes_leaves h
      refine ⟨by rw [h1], fun hw => h2 (Memory.wf_write hw ha b), fun c hc => ?_⟩
      simp only [List.length_cons] at hc
      rw [h3 c (by omega)]
      exact Memory.read_write_ne (by omega) b s.mem
    · rw [storeBytes_outside (by omega)] at h
      simp only [leaves_fault, Fault.leftState, Option.some.injEq] at h
      subst h
      exact ⟨rfl, id, fun _ _ => rfl⟩

/-! ### Block loads -/

/-- The states a block load passes through: only registers of the list change. -/
theorem loadBytes_leaves : ∀ {ks : List Reg} {a : Nat} {s t : State}, leaves (loadBytes a ks s) = some t →
    t = { s with V := t.V } ∧ ∀ k, k ∉ ks → t.getV k = s.getV k
  | [], a, s, t, h => by
    simp only [loadBytes, leaves_next, Option.some.injEq] at h
    subst h
    exact ⟨rfl, fun _ _ => rfl⟩
  | r :: ks, a, s, t, h => by
    by_cases ha : a ≤ 4095
    · rw [loadBytes, memRead_of_le ha] at h
      obtain ⟨h1, h2⟩ := loadBytes_leaves h
      refine ⟨by rw [h1]; rfl, fun k hk => ?_⟩
      simp only [List.mem_cons, not_or] at hk
      rw [h2 k hk.2, State.getV_setV, if_neg hk.1]
    · rw [loadBytes, memRead_of_gt (by omega)] at h
      simp only [leaves_fault, Fault.leftState, Option.some.injEq] at h
      subst h
      exact ⟨rfl, fun _ _ => rfl⟩

/-- A block load inside the memory completes and loads every register of the list. -/
theorem loadBytes_fits : ∀ {ks : List Reg} {a : Nat} {s : State}, ks.Nodup → a + ks.length ≤ 4096 →
    ∃ t, loadBytes a ks s = .next t ∧ ∀ (j : Nat) (hj : j < ks.length), t.getV ks[j] = s.byteAt (a + j)
  | [], a, s, _, _ => ⟨s, rfl, fun j hj => absurd hj (Nat.not_lt_zero j)⟩
  | r :: ks, a, s, hn, h => by
    simp only [List.length_cons] at h
    rw [List.nodup_cons] at hn
    obtain ⟨t, ht, hj⟩ := loadBytes_fits (a := a + 1) (s := s.setV r (s.byteAt a)) hn.2 (by omega)
    refine ⟨t, by rw [loadBytes, memRead_of_le (by omega), ht], fun j hj' => ?_⟩
    cases j with
    | zero =>
      have := (loadBytes_leaves (t := t) (by rw [ht]; rfl)).2 r hn.1
      simp [this]
    | succ j =>
      simp only [List.length_cons] at hj'
      have := hj j (by omega)
      simp only [List.getElem_cons_succ, this, State.byteAt_setV]
      congr 1
      omega

/-- A block load that passes the end of memory loads the registers before it and faults at address 4096. -/
theorem loadBytes_crosses : ∀ {ks : List Reg} {a : Nat} {s : State}, a ≤ 4096 → 4096 < a + ks.length →
    ∃ t, loadBytes a ks s = .fault (.memoryOutOfBounds 4096 t) ∧ loadBytes a (ks.take (4096 - a)) s = .next t
  | [], a, s, h, h' => by simp at h'; omega
  | r :: ks, a, s, h, h' => by
    simp only [List.length_cons] at h'
    by_cases ha : a = 4096
    · subst ha
      exact ⟨s, by rw [loadBytes, memRead_of_gt (by omega)], rfl⟩
    · obtain ⟨t, h1, h2⟩ := loadBytes_crosses (ks := ks) (a := a + 1) (s := s.setV r (s.byteAt a)) (by omega) (by omega)
      refine ⟨t, by rw [loadBytes, memRead_of_le (by omega), h1], ?_⟩
      rw [show 4096 - a = (4096 - (a + 1)) + 1 by omega, List.take_succ_cons, loadBytes, memRead_of_le (by omega), h2]

/-- A block load that begins past the end of memory loads nothing and faults at its first address. -/
theorem loadBytes_outside {r : Reg} {ks : List Reg} {a : Nat} {s : State} (h : 4095 < a) :
    loadBytes a (r :: ks) s = .fault (.memoryOutOfBounds a s) := by
  rw [loadBytes, memRead_of_gt h]

/-! ### The registers of a block transfer -/

@[simp] theorem regsUpTo_length (x : Reg) : (regsUpTo x).length = x.val + 1 := by
  simp [regsUpTo]

theorem regsUpTo_getElem (x : Reg) (j : Nat) (hj : j < (regsUpTo x).length) :
    (regsUpTo x)[j] = ⟨j, by simp at hj; omega⟩ := by
  simp [regsUpTo]

theorem regsUpTo_nodup (x : Reg) : (regsUpTo x).Nodup :=
  (List.nodup_finRange 16).sublist (List.take_sublist _ _)

theorem mem_regsUpTo {x k : Reg} : k ∈ regsUpTo x ↔ k ≤ x := by
  rw [List.mem_iff_getElem]
  constructor
  · rintro ⟨j, hj, rfl⟩
    rw [regsUpTo_getElem, Fin.le_def]
    simp at hj
    exact hj
  · intro h
    exact ⟨k.val, by simp; omega, regsUpTo_getElem x _ _⟩

/-! ### The call stack -/

theorem pushPc_of_lt {s : State} (h : s.sp.val < 16) :
    pushPc s = .next { s with stack := s.stack.set s.sp.val s.pc, sp := ⟨s.sp.val + 1, by omega⟩ } := by
  simp [pushPc, h]

theorem pushPc_of_full {s : State} (h : ¬ s.sp.val < 16) : pushPc s = .fault (.stackOverflow s) := by
  simp [pushPc, raise, h]

theorem popPc_of_pos {s : State} (h : 0 < s.sp.val) :
    popPc s = .next { s with pc := s.stack[s.sp.val - 1]'(by omega), sp := ⟨s.sp.val - 1, by omega⟩ } := by
  simp [popPc, h]

theorem popPc_of_empty {s : State} (h : ¬ 0 < s.sp.val) : popPc s = .fault (.stackUnderflow s) := by
  simp only [popPc, raise, if_neg h]

/-! ### Fetch -/

theorem fetch_of_le {s : State} (h : s.pc.toNat + 1 ≤ 4095) :
    fetch s = .next { s with opcode := s.fetchedWord, pc := s.pc + 2 } := by
  simp [fetch, h]

theorem fetch_of_gt {s : State} (h : 4095 < s.pc.toNat + 1) : fetch s = .fault (.fetchOutOfBounds s.pc s) := by
  simp [fetch, raise, Nat.not_le.mpr h]

/-! ### Runs of steps -/

/-- A run of one step more goes on from the state the first step gives. -/
theorem run_succ_of_next {s t : State} {n : Nat} (h : step s = .next t) :
    Host.Core.run core (n + 1) s = Host.Core.run core n t := by
  have h' : core.step s = .next t := h
  simp only [Host.Core.run, h']

/-! ### The end of a run -/

/-- What the convention for a successful end says. -/
theorem ended_iff {s : State} :
    s.ended = true ↔ s.pc.toNat + 1 ≤ 4095 ∧ decodeWord s.fetchedWord = .ok (.jp (s.pc.setWidth 12)) := by
  simp [State.ended]

theorem endedWell_iff {m : Session} : m.endedWell = true ↔ m.phase ≠ .stopped ∧ m.machine.ended = true := by
  simp [Session.endedWell]

/-- The convention reads `pc` and memory alone. -/
theorem ended_congr {s t : State} (hpc : t.pc = s.pc) (hm : t.mem = s.mem) : t.ended = s.ended := by
  have hw : t.fetchedWord = s.fetchedWord := by simp only [State.fetchedWord, State.byteAt, hpc, hm]
  rw [State.ended, State.ended, hpc, hw]

@[simp] theorem ended_tick (s : State) : (tick s).ended = s.ended := rfl
@[simp] theorem ended_keys (k : Vector Bool 16) (s : State) : (keys k s).ended = s.ended := rfl

/-! ### Keys -/

theorem withKey_of_le {s : State} {x : Reg} (h : (s.getV x).toNat < 16) (f : Key → Result) :
    withKey s x f = f ⟨(s.getV x).toNat, h⟩ := by
  simp [withKey, h]

theorem withKey_of_gt {s : State} {x : Reg} (h : ¬ (s.getV x).toNat < 16) (f : Key → Result) :
    withKey s x f = .fault (.keypadOutOfBounds (s.getV x).toNat s) := by
  simp [withKey, raise, h]

/-- No key is found exactly when no key is pressed. -/
theorem firstKey_none {s : State} : s.firstKey = none ↔ ∀ k, s.keyDown k = false := by
  simp [State.firstKey]

/-- The key found is pressed, and every lower key is not. -/
theorem firstKey_some {s : State} {k : Key} : s.firstKey = some k ↔ s.keyDown k = true ∧ ∀ j < k, s.keyDown j = false := by
  rw [State.firstKey, List.find?_eq_some_iff_getElem]
  constructor
  · rintro ⟨hp, i, hi, hk, hlow⟩
    refine ⟨hp, fun j hj => ?_⟩
    have hik : i = k.val := by rw [← hk]; simp
    have := hlow j.val (by rw [hik]; exact hj)
    simpa using this
  · rintro ⟨hp, hlow⟩
    refine ⟨hp, k.val, by simp, by simp, fun j hj => ?_⟩
    have := hlow ⟨j, by omega⟩ hj
    simpa using this

end Sys2Proof.Machine
end

