-- ==== Sys2Proof/Laws/Draw.lean ====
section
/-! SUPPORT. The spec lemma of sprite drawing: what the rows and pixels drawn so far have done, and where a draw
stops. -/

namespace Sys2Proof.Machine

/-- `t` is `s` with the sprite drawn up to pixel `c` of row `r`: the covered cells are flipped, `VF` tells whether one
of them was lit, and nothing else differs (43_display.md R161). -/
structure DrawnTo (s : State) (cx cy base r c : Nat) (t : State) : Prop where
  rest : t = { s with display := t.display, V := t.V }
  cells : ∀ row col, t.cell row col = (s.cell row col ^^ coveredBefore s cx cy base r c row col)
  flag : t.getV 15 = flagByte (decide (∃ row col, coveredBefore s cx cy base r c row col = true ∧ s.cell row col = true))
  regs : ∀ k, k ≠ 15 → t.getV k = s.getV k

/-- Memory is no part of what a draw changes. -/
theorem DrawnTo.byteAt {s t : State} {cx cy base r c : Nat} (h : DrawnTo s cx cy base r c t) (a : Nat) :
    t.byteAt a = s.byteAt a := by
  rw [h.rest]
  rfl

/-- Nothing is covered before the first pixel. -/
theorem coveredBefore_zero (s : State) (cx cy base : Nat) (row : Fin 32) (col : Fin 64) :
    coveredBefore s cx cy base 0 0 row col = false := by
  have : ¬ (cy ≤ row.val ∧ cx ≤ col.val ∧ col.val < cx + 8 ∧
    (row.val < cy + 0 ∨ row.val = cy + 0 ∧ col.val < cx + 0)) := by omega
  simp only [coveredBefore, this, decide_false, Bool.false_and]

/-- The eight pixels of a row done is the next row begun. -/
theorem coveredBefore_row (s : State) (cx cy base r : Nat) (row : Fin 32) (col : Fin 64) :
    coveredBefore s cx cy base r 8 row col = coveredBefore s cx cy base (r + 1) 0 row col := by
  have : (cy ≤ row.val ∧ cx ≤ col.val ∧ col.val < cx + 8 ∧
      (row.val < cy + r ∨ row.val = cy + r ∧ col.val < cx + 8)) ↔
    (cy ≤ row.val ∧ cx ≤ col.val ∧ col.val < cx + 8 ∧
      (row.val < cy + (r + 1) ∨ row.val = cy + (r + 1) ∧ col.val < cx + 0)) := by omega
  simp only [coveredBefore, this]

/-- One pixel more covers exactly the cell of that pixel, when its sprite bit is set. -/
theorem coveredBefore_pixel (s : State) (cx cy base r : Nat) {c : Nat} (hc : c < 8) (row : Fin 32) (col : Fin 64) :
    coveredBefore s cx cy base r (c + 1) row col =
      (coveredBefore s cx cy base r c row col ||
        (spriteBit (s.byteAt (base + r)) c && decide (row.val = cy + r ∧ col.val = cx + c))) := by
  by_cases h : row.val = cy + r ∧ col.val = cx + c
  · have h1 : (cy ≤ row.val ∧ cx ≤ col.val ∧ col.val < cx + 8 ∧
      (row.val < cy + r ∨ row.val = cy + r ∧ col.val < cx + (c + 1))) := by omega
    have h2 : ¬ (cy ≤ row.val ∧ cx ≤ col.val ∧ col.val < cx + 8 ∧
      (row.val < cy + r ∨ row.val = cy + r ∧ col.val < cx + c)) := by omega
    have h3 : base + (row.val - cy) = base + r := by omega
    have h4 : col.val - cx = c := by omega
    rw [coveredBefore, coveredBefore, decide_eq_true h1, decide_eq_false h2, decide_eq_true h, h3, h4]
    simp
  · have : (cy ≤ row.val ∧ cx ≤ col.val ∧ col.val < cx + 8 ∧
        (row.val < cy + r ∨ row.val = cy + r ∧ col.val < cx + (c + 1))) ↔
      (cy ≤ row.val ∧ cx ≤ col.val ∧ col.val < cx + 8 ∧
        (row.val < cy + r ∨ row.val = cy + r ∧ col.val < cx + c)) := by omega
    simp only [coveredBefore, this, h, decide_false, Bool.and_false, Bool.or_false]

/-- The cell of a pixel is not covered before that pixel. -/
theorem coveredBefore_self (s : State) (cx cy base r c : Nat) (row : Fin 32) (col : Fin 64)
    (hr : row.val = cy + r) (hc : col.val = cx + c) : coveredBefore s cx cy base r c row col = false := by
  have : ¬ (cy ≤ row.val ∧ cx ≤ col.val ∧ col.val < cx + 8 ∧
    (row.val < cy + r ∨ row.val = cy + r ∧ col.val < cx + c)) := by omega
  simp only [coveredBefore, this, decide_false, Bool.false_and]

/-- Clearing `VF` begins the draw. -/
theorem drawnTo_start (s : State) (cx cy base : Nat) : DrawnTo s cx cy base 0 0 (s.setVF 0) where
  rest := rfl
  cells row col := by simp [coveredBefore_zero]
  flag := by simp [coveredBefore_zero, flagByte]
  regs k hk := by simp [hk]

/-- An unset bit draws nothing. -/
theorem drawnTo_unset {s t : State} {cx cy base r c : Nat} (h : DrawnTo s cx cy base r c t) (hc : c < 8)
    (hb : spriteBit (s.byteAt (base + r)) c = false) : DrawnTo s cx cy base r (c + 1) t := by
  have key : ∀ row col, coveredBefore s cx cy base r (c + 1) row col = coveredBefore s cx cy base r c row col := by
    intro row col
    simp [coveredBefore_pixel s cx cy base r hc, hb]
  exact ⟨h.rest, by simpa only [key] using h.cells, by simpa only [key] using h.flag, h.regs⟩

/-- A set bit on the grid flips its cell and notes a collision. -/
theorem drawnTo_set {s t : State} {cx cy base r c : Nat} (h : DrawnTo s cx cy base r c t) (hc : c < 8)
    (hb : spriteBit (s.byteAt (base + r)) c = true) (hx : cx + c < 64) (hy : cy + r < 32) :
    ∃ t', drawPixel (cx + c) (cy + r) t = .next t' ∧ DrawnTo s cx cy base r (c + 1) t' := by
  let row₀ : Fin 32 := ⟨cy + r, hy⟩
  let col₀ : Fin 64 := ⟨cx + c, hx⟩
  have hself := coveredBefore_self s cx cy base r c row₀ col₀ rfl rfl
  have hlit : t.cell row₀ col₀ = s.cell row₀ col₀ := by rw [h.cells, hself, Bool.xor_false]
  have key : ∀ row col, coveredBefore s cx cy base r (c + 1) row col =
      (coveredBefore s cx cy base r c row col || decide (row = row₀ ∧ col = col₀)) := by
    intro row col
    simp only [coveredBefore_pixel s cx cy base r hc, hb, Bool.true_and, Fin.ext_iff, row₀, col₀]
  have hex : (∃ row col, coveredBefore s cx cy base r (c + 1) row col = true ∧ s.cell row col = true) ↔
      (∃ row col, coveredBefore s cx cy base r c row col = true ∧ s.cell row col = true) ∨ s.cell row₀ col₀ = true := by
    constructor
    · rintro ⟨row, col, h1, h2⟩
      simp only [key, Bool.or_eq_true, decide_eq_true_eq] at h1
      rcases h1 with h1 | ⟨rfl, rfl⟩
      · exact .inl ⟨row, col, h1, h2⟩
      · exact .inr h2
    · rintro (⟨row, col, h1, h2⟩ | h2)
      · exact ⟨row, col, by simp [key, h1], h2⟩
      · exact ⟨row₀, col₀, by simp [key], h2⟩
  refine ⟨_, by simp only [drawPixel, dif_pos (And.intro hx hy)]; rfl, ?_⟩
  refine ⟨?_, fun row col => ?_, ?_, fun k hk => ?_⟩
  · by_cases hl : t.cell ⟨cy + r, hy⟩ ⟨cx + c, hx⟩
    · simp only [hl, if_true]
      conv => lhs; rw [h.rest]
      rfl
    · simp only [hl]
      conv => lhs; rw [h.rest]
      rfl
  · have hcell : ∀ u : State, (if t.cell ⟨cy + r, hy⟩ ⟨cx + c, hx⟩ then t.setVF 1 else t) = u →
        u.cell row col = t.cell row col := by
      rintro u rfl
      split <;> simp
    rw [State.cell_flipCell, hcell _ rfl, h.cells, key]
    by_cases hrc : row = row₀ ∧ col = col₀
    · obtain ⟨rfl, rfl⟩ := hrc
      simp [hself, row₀, col₀]
    · have : ¬ (row = ⟨cy + r, hy⟩ ∧ col = ⟨cx + c, hx⟩) := hrc
      simp [hrc, this]
  · rw [State.getV_flipCell]
    by_cases hl : t.cell ⟨cy + r, hy⟩ ⟨cx + c, hx⟩
    · have hl' : s.cell row₀ col₀ = true := hlit ▸ hl
      simp only [hl, if_true, State.setVF_eq, State.getV_setV, hex, hl', or_true, decide_true]
      rfl
    · have hl' : s.cell row₀ col₀ = false := by
        rw [← hlit]
        simpa using hl
      simp only [hl, hex, hl', Bool.false_eq_true, or_false]
      exact h.flag
  · rw [State.getV_flipCell]
    split
    · simp [hk, h.regs k hk]
    · exact h.regs k hk

/-- The pixels `c` to 7 of row `r`: all are drawn, or the first that does not fit faults. -/
theorem drawPixels_spec {s : State} {cx cy base r : Nat} : ∀ {m c : Nat} {t : State}, c + m = 8 →
    DrawnTo s cx cy base r c t →
    (∃ t', drawPixels cx (cy + r) (s.byteAt (base + r)) (List.range' c m) t = .next t' ∧
      DrawnTo s cx cy base r 8 t' ∧ ∀ c', c ≤ c' → c' < 8 → pixelFits s cx cy base r c') ∨
    (∃ c' t', c ≤ c' ∧ c' < 8 ∧
      drawPixels cx (cy + r) (s.byteAt (base + r)) (List.range' c m) t =
        .fault (.displayOutOfBounds (cx + c') (cy + r) t') ∧
      DrawnTo s cx cy base r c' t' ∧ ¬ pixelFits s cx cy base r c' ∧
      ∀ c'', c ≤ c'' → c'' < c' → pixelFits s cx cy base r c'')
  | 0, c, t, hm, h => by
    obtain rfl : c = 8 := by omega
    exact .inl ⟨t, rfl, h, fun c' h1 h2 => absurd h1 (by omega)⟩
  | m + 1, c, t, hm, h => by
    rw [List.range'_succ, drawPixels]
    have step : ∀ t', pixelFits s cx cy base r c → DrawnTo s cx cy base r (c + 1) t' →
        (∃ t'', drawPixels cx (cy + r) (s.byteAt (base + r)) (List.range' (c + 1) m) t' = .next t'' ∧
          DrawnTo s cx cy base r 8 t'' ∧ ∀ c', c ≤ c' → c' < 8 → pixelFits s cx cy base r c') ∨
        (∃ c' t'', c ≤ c' ∧ c' < 8 ∧
          drawPixels cx (cy + r) (s.byteAt (base + r)) (List.range' (c + 1) m) t' =
            .fault (.displayOutOfBounds (cx + c') (cy + r) t'') ∧
          DrawnTo s cx cy base r c' t'' ∧ ¬ pixelFits s cx cy base r c' ∧
          ∀ c'', c ≤ c'' → c'' < c' → pixelFits s cx cy base r c'') := by
      intro t' hp ht'
      have fits : ∀ {c' : Nat}, c ≤ c' → (c + 1 ≤ c' → pixelFits s cx cy base r c') → pixelFits s cx cy base r c' := by
        intro c' hle hnext
        rcases Nat.eq_or_lt_of_le hle with rfl | hlt
        · exact hp
        · exact hnext hlt
      rcases drawPixels_spec (m := m) (c := c + 1) (by omega) ht' with ⟨t'', h1, h2, h3⟩ | ⟨c', t'', hc1, hc2, h1, h2, h3, h4⟩
      · exact .inl ⟨t'', h1, h2, fun c' a b => fits a fun a' => h3 c' a' b⟩
      · exact .inr ⟨c', t'', by omega, hc2, h1, h2, h3, fun c'' a b => fits a fun a' => h4 c'' a' b⟩
    cases hb : spriteBit (s.byteAt (base + r)) c with
    | false =>
      simp only [Bool.false_eq_true, if_false, andThen_next]
      exact step t (fun h' => absurd (hb ▸ h') (by simp)) (drawnTo_unset h (by omega) hb)
    | true =>
      simp only [if_true]
      by_cases hxy : cx + c < 64 ∧ cy + r < 32
      · obtain ⟨t', h1, h2⟩ := drawnTo_set h (by omega) hb hxy.1 hxy.2
        simp only [h1, andThen_next]
        exact step t' (fun _ => hxy) h2
      · refine .inr ⟨c, t, Nat.le_refl c, by omega, ?_, h, fun hp => hxy (hp hb), fun c'' a b => absurd a (by omega)⟩
        simp only [drawPixel, dif_neg hxy, raise, andThen_fault]

/-- The rows `r` to `n - 1` of a sprite: all are drawn, or the first row that cannot be read or placed faults. -/
theorem drawRows_spec {s : State} {cx cy base n : Nat} : ∀ {m r : Nat} {t : State}, r + m = n →
    DrawnTo s cx cy base r 0 t →
    (∃ t', drawRows cx cy base (List.range' r m) t = .next t' ∧ DrawnTo s cx cy base n 0 t' ∧
      ∀ r', r ≤ r' → r' < n → rowFits s cx cy base r') ∨
    (∃ r' c' t' f, r ≤ r' ∧ r' < n ∧ drawRows cx cy base (List.range' r m) t = .fault f ∧
      DrawnTo s cx cy base r' c' t' ∧ (∀ r'', r ≤ r'' → r'' < r' → rowFits s cx cy base r'') ∧
      (f = .memoryOutOfBounds (base + r') t' ∧ c' = 0 ∧ 4095 < base + r' ∨
       f = .displayOutOfBounds (cx + c') (cy + r') t' ∧ base + r' ≤ 4095 ∧ c' < 8 ∧
        ¬ pixelFits s cx cy base r' c' ∧ ∀ c'' < c', pixelFits s cx cy base r' c''))
  | 0, r, t, hm, h => by
    obtain rfl : r = n := by omega
    exact .inl ⟨t, rfl, h, fun r' h1 h2 => absurd h1 (by omega)⟩
  | m + 1, r, t, hm, h => by
    rw [List.range'_succ, drawRows]
    by_cases ha : base + r ≤ 4095
    · rw [memRead_of_le ha, h.byteAt, show List.range 8 = List.range' 0 8 from List.range_eq_range' ..]
      rcases drawPixels_spec (m := 8) (c := 0) rfl h with ⟨t', h1, h2, h3⟩ | ⟨c', t', hc1, hc2, h1, h2, h3, h4⟩
      · rw [h1, andThen_next]
        have hrow : rowFits s cx cy base r := ⟨ha, fun c hc => h3 c (Nat.zero_le c) hc⟩
        have h2' : DrawnTo s cx cy base (r + 1) 0 t' :=
          ⟨h2.rest, by simpa only [coveredBefore_row] using h2.cells, by simpa only [coveredBefore_row] using h2.flag, h2.regs⟩
        have fits : ∀ {r' : Nat}, r ≤ r' → (r + 1 ≤ r' → rowFits s cx cy base r') → rowFits s cx cy base r' := by
          intro r' hle hnext
          rcases Nat.eq_or_lt_of_le hle with rfl | hlt
          · exact hrow
          · exact hnext hlt
        rcases drawRows_spec (n := n) (m := m) (r := r + 1) (by omega) h2' with
          ⟨t'', g1, g2, g3⟩ | ⟨r', c', t'', f, g1, g2, g3, g4, g5, g6⟩
        · exact .inl ⟨t'', g1, g2, fun r' a b => fits a fun a' => g3 r' a' b⟩
        · exact .inr ⟨r', c', t'', f, by omega, g2, g3, g4, fun r'' a b => fits a fun a' => g5 r'' a' b, g6⟩
      · rw [h1, andThen_fault]
        exact .inr ⟨r, c', t', _, Nat.le_refl r, by omega, rfl, h2, fun r'' a b => absurd a (by omega),
          .inr ⟨rfl, ha, hc2, h3, fun c'' hc => h4 c'' (Nat.zero_le _) hc⟩⟩
    · rw [memRead_of_gt (by omega), andThen_fault]
      exact .inr ⟨r, 0, t, _, Nat.le_refl r, by omega, rfl, h, fun r'' a b => absurd a (by omega),
        .inl ⟨rfl, rfl, by omega⟩⟩

/-! ### The whole draw -/

/-- `VF` after a draw, as a condition. -/
theorem DrawnTo.flag_if {s t : State} {cx cy base r c : Nat} (h : DrawnTo s cx cy base r c t) :
    t.getV 15 = if ∃ row col, coveredBefore s cx cy base r c row col = true ∧ s.cell row col = true then 1 else 0 := by
  rw [h.flag, flagByte]
  by_cases he : ∃ row col, coveredBefore s cx cy base r c row col = true ∧ s.cell row col = true
  · rw [if_pos he, if_pos (decide_eq_true he)]
  · rw [if_neg he, if_neg (by rw [decide_eq_false he]; decide)]

/-- Every register after a draw. -/
theorem DrawnTo.getV {s t : State} {cx cy base r c : Nat} (h : DrawnTo s cx cy base r c t) (k : Reg) :
    t.getV k = if k = 15 then
      (if ∃ row col, coveredBefore s cx cy base r c row col = true ∧ s.cell row col = true then 1 else 0)
      else s.getV k := by
  by_cases hk : k = 15
  · rw [if_pos hk, hk, h.flag_if]
  · rw [if_neg hk, h.regs k hk]

/-- DRW of a sprite that fits completes with the whole sprite drawn; one that does not faults at the first row that
cannot be read or the first pixel that cannot be placed, with the sprite drawn up to there. -/
theorem execDrw_spec (x y : Reg) (n : Nat) (s : State) :
    (∃ t, execDrw x y n s = .next t ∧ spriteFits s x y n ∧
      DrawnTo s (coordOperand s x) (coordOperand s y) (indexAddr s 0) n 0 t) ∨
    (∃ r c t f, r < n ∧ execDrw x y n s = .fault f ∧ f.leftState = t ∧ ¬ spriteFits s x y n ∧
      DrawnTo s (coordOperand s x) (coordOperand s y) (indexAddr s 0) r c t ∧
      (∀ r' < r, rowFits s (coordOperand s x) (coordOperand s y) (indexAddr s 0) r') ∧
      (f = .memoryOutOfBounds (indexAddr s 0 + r) t ∧ c = 0 ∧ 4095 < indexAddr s 0 + r ∨
       f = .displayOutOfBounds (coordOperand s x + c) (coordOperand s y + r) t ∧ indexAddr s 0 + r ≤ 4095 ∧ c < 8 ∧
        ¬ pixelFits s (coordOperand s x) (coordOperand s y) (indexAddr s 0) r c ∧
        ∀ c' < c, pixelFits s (coordOperand s x) (coordOperand s y) (indexAddr s 0) r c')) := by
  rw [execDrw, List.range_eq_range']
  rcases drawRows_spec (n := n) (m := n) (r := 0) (Nat.zero_add n)
      (drawnTo_start s (coordOperand s x) (coordOperand s y) (indexAddr s 0)) with
    ⟨t, h1, h2, h3⟩ | ⟨r, c, t, f, -, h1, h2, h3, h4, h5⟩
  · exact .inl ⟨t, h1, fun r hr => h3 r (Nat.zero_le r) hr, h2⟩
  · refine .inr ⟨r, c, t, f, h1, h2, ?_, fun hf => ?_, h3, fun r' hr => h4 r' (Nat.zero_le r') hr, h5⟩
    · rcases h5 with ⟨rfl, _⟩ | ⟨rfl, _⟩ <;> rfl
    · rcases h5 with ⟨_, _, ha⟩ | ⟨_, _, hc, hp, _⟩
      · exact absurd (hf r h1).1 (by omega)
      · exact hp ((hf r h1).2 c hc)

/-- Whatever a draw leaves is the sprite drawn up to some pixel. -/
theorem execDrw_leaves {x y : Reg} {n : Nat} {s t : State} (h : leaves (execDrw x y n s) = some t) :
    ∃ r c, DrawnTo s (coordOperand s x) (coordOperand s y) (indexAddr s 0) r c t := by
  rcases execDrw_spec x y n s with ⟨t', h1, -, h2⟩ | ⟨r, c, t', f, -, h1, h2, -, h3, -⟩
  · rw [h1] at h
    cases h
    exact ⟨n, 0, h2⟩
  · rw [h1, leaves_fault, h2] at h
    cases h
    exact ⟨r, c, h3⟩

/-- Two states with the same memory bytes, index and coordinates cover the same cells. -/
theorem covered_congr {s t : State} {x y : Reg} {n : Nat} (hx : t.getV x = s.getV x) (hy : t.getV y = s.getV y)
    (hI : t.I = s.I) (hb : ∀ a, t.byteAt a = s.byteAt a) (row : Fin 32) (col : Fin 64) :
    covered t x y n row col = covered s x y n row col := by
  have ex : coordOperand t x = coordOperand s x := congrArg BitVec.toNat hx
  have ey : coordOperand t y = coordOperand s y := congrArg BitVec.toNat hy
  have ei : indexAddr t 0 = indexAddr s 0 := by simp only [indexAddr, hI]
  rw [covered, covered, ex, ey, ei]
  simp only [coveredBefore, hb]

/-- Two states with the same memory bytes, index and coordinates take the same sprites. -/
theorem spriteFits_congr {s t : State} {x y : Reg} {n : Nat} (hx : t.getV x = s.getV x) (hy : t.getV y = s.getV y)
    (hI : t.I = s.I) (hb : ∀ a, t.byteAt a = s.byteAt a) : spriteFits t x y n ↔ spriteFits s x y n := by
  simp only [spriteFits, rowFits, pixelFits, coordOperand, indexAddr, hx, hy, hI, hb]

end Sys2Proof.Machine
end

