-- ==== Sys2Proof/Laws/PerInstr.lean ====
section
/-! SUPPORT. The family RowMatch: the word of an instruction matches the instruction's own row of the opcode map
(30_encoding.md R77), one lemma per constructor. -/

namespace Sys2Proof.Laws.RowMatch

/-- The word of `i` is accepted by the match and mask of its row. -/
def Statement (i : Instr) : Prop := (rowOf i).accepts (encode i) = true

/-- The mask 0xF000 has the bits of the leading nibble. -/
theorem mask_op (i : Nat) (hi : i < 16) : (0xF000#16).getLsbD i = decide (12 ≤ i) := by
  revert i
  decide

/-- The mask 0xF00F has the bits of the leading and the trailing nibble. -/
theorem mask_op_n (i : Nat) (hi : i < 16) : (0xF00F#16).getLsbD i = (decide (12 ≤ i) || decide (i < 4)) := by
  revert i
  decide

/-- The mask 0xF0FF has the bits of the leading nibble and the trailing byte. -/
theorem mask_op_kk (i : Nat) (hi : i < 16) : (0xF0FF#16).getLsbD i = (decide (12 ≤ i) || decide (i < 8)) := by
  revert i
  decide

/-- Under the mask 0xF000 a word of format NNN keeps its opcode only. -/
theorem formatNNN_masked (op : BitVec 4) (nnn : Addr12) : formatNNN op nnn &&& 0xF000#16 = formatNNN op 0 := by
  refine BitVec.eq_of_getLsbD_eq fun i hi => ?_
  rw [BitVec.getLsbD_and, mask_op i hi, getLsbD_formatNNN, getLsbD_formatNNN]
  by_cases h : i < 12
  · simp [h]
  · simp [h]
    omega

/-- Under the mask 0xF000 a word of format XKK keeps its opcode only. -/
theorem formatXKK_masked (op : BitVec 4) (x : Reg) (kk : Byte) : formatXKK op x kk &&& 0xF000#16 = formatXKK op 0 0 := by
  refine BitVec.eq_of_getLsbD_eq fun i hi => ?_
  rw [BitVec.getLsbD_and, mask_op i hi, getLsbD_formatXKK, getLsbD_formatXKK]
  by_cases h : i < 8 <;> by_cases h' : i - 8 < 4 <;> simp [h, h', regField] <;> omega

/-- Under the mask 0xF0FF a word of format XF keeps its opcode and function code. -/
theorem formatXF_masked (op : BitVec 4) (x : Reg) (kk : Byte) : formatXKK op x kk &&& 0xF0FF#16 = formatXKK op 0 kk := by
  refine BitVec.eq_of_getLsbD_eq fun i hi => ?_
  rw [BitVec.getLsbD_and, mask_op_kk i hi, getLsbD_formatXKK, getLsbD_formatXKK]
  by_cases h : i < 8 <;> by_cases h' : i - 8 < 4 <;> simp [h, h', regField] <;> omega

/-- Under the mask 0xF00F a word of format XY keeps its opcode and function code. -/
theorem formatXY_masked (op : BitVec 4) (x y : Reg) (n : BitVec 4) :
    formatXY op x y n &&& 0xF00F#16 = formatXY op 0 0 n := by
  refine BitVec.eq_of_getLsbD_eq fun i hi => ?_
  rw [BitVec.getLsbD_and, mask_op_n i hi, getLsbD_formatXY, getLsbD_formatXY]
  by_cases h : i < 4 <;> by_cases h' : i - 4 < 4 <;> by_cases h'' : i - 4 - 4 < 4 <;> simp [h, h', h'', regField] <;> omega

/-- Under the mask 0xF000 a word of format XYN keeps its opcode only. -/
theorem formatXYN_masked (op : BitVec 4) (x y : Reg) (n : BitVec 4) :
    formatXY op x y n &&& 0xF000#16 = formatXY op 0 0 0 := by
  refine BitVec.eq_of_getLsbD_eq fun i hi => ?_
  rw [BitVec.getLsbD_and, mask_op i hi, getLsbD_formatXY, getLsbD_formatXY]
  by_cases h : i < 4 <;> by_cases h' : i - 4 < 4 <;> by_cases h'' : i - 4 - 4 < 4 <;> simp [h, h', h'', regField] <;> omega

/-- A word whose masked value is the pattern is accepted. -/
theorem of_masked {i : Instr} {w : Word} (h : encode i &&& (rowOf i).mask = w) (hw : w = (rowOf i).pattern) :
    Statement i := by
  simp only [Statement, OpcodeRow.accepts, h, hw, decide_true]

theorem cls : Statement .cls := rfl
theorem ret : Statement .ret := rfl
theorem jp (nnn : Addr12) : Statement (.jp nnn) := of_masked (formatNNN_masked _ _) rfl
theorem call (nnn : Addr12) : Statement (.call nnn) := of_masked (formatNNN_masked _ _) rfl
theorem seImm (x : Reg) (kk : Byte) : Statement (.seImm x kk) := of_masked (formatXKK_masked _ _ _) rfl
theorem sneImm (x : Reg) (kk : Byte) : Statement (.sneImm x kk) := of_masked (formatXKK_masked _ _ _) rfl
theorem seReg (x y : Reg) : Statement (.seReg x y) := of_masked (formatXY_masked _ _ _ _) rfl
theorem ldImm (x : Reg) (kk : Byte) : Statement (.ldImm x kk) := of_masked (formatXKK_masked _ _ _) rfl
theorem addImm (x : Reg) (kk : Byte) : Statement (.addImm x kk) := of_masked (formatXKK_masked _ _ _) rfl
theorem ldReg (x y : Reg) : Statement (.ldReg x y) := of_masked (formatXY_masked _ _ _ _) rfl
theorem orReg (x y : Reg) : Statement (.orReg x y) := of_masked (formatXY_masked _ _ _ _) rfl
theorem andReg (x y : Reg) : Statement (.andReg x y) := of_masked (formatXY_masked _ _ _ _) rfl
theorem xorReg (x y : Reg) : Statement (.xorReg x y) := of_masked (formatXY_masked _ _ _ _) rfl
theorem addReg (x y : Reg) : Statement (.addReg x y) := of_masked (formatXY_masked _ _ _ _) rfl
theorem subReg (x y : Reg) : Statement (.subReg x y) := of_masked (formatXY_masked _ _ _ _) rfl
theorem shr (x y : Reg) : Statement (.shr x y) := of_masked (formatXY_masked _ _ _ _) rfl
theorem subnReg (x y : Reg) : Statement (.subnReg x y) := of_masked (formatXY_masked _ _ _ _) rfl
theorem shl (x y : Reg) : Statement (.shl x y) := of_masked (formatXY_masked _ _ _ _) rfl
theorem sneReg (x y : Reg) : Statement (.sneReg x y) := of_masked (formatXY_masked _ _ _ _) rfl
theorem ldI (nnn : Addr12) : Statement (.ldI nnn) := of_masked (formatNNN_masked _ _) rfl
theorem jpV0 (nnn : Addr12) : Statement (.jpV0 nnn) := of_masked (formatNNN_masked _ _) rfl
theorem rnd (x : Reg) (kk : Byte) : Statement (.rnd x kk) := of_masked (formatXKK_masked _ _ _) rfl
theorem drw (x y : Reg) (n : Nat) : Statement (.drw x y n) := of_masked (formatXYN_masked _ _ _ _) rfl
theorem skp (x : Reg) : Statement (.skp x) := of_masked (formatXF_masked _ _ _) rfl
theorem sknp (x : Reg) : Statement (.sknp x) := of_masked (formatXF_masked _ _ _) rfl
theorem ldVxDT (x : Reg) : Statement (.ldVxDT x) := of_masked (formatXF_masked _ _ _) rfl
theorem ldVxK (x : Reg) : Statement (.ldVxK x) := of_masked (formatXF_masked _ _ _) rfl
theorem ldDTVx (x : Reg) : Statement (.ldDTVx x) := of_masked (formatXF_masked _ _ _) rfl
theorem ldSTVx (x : Reg) : Statement (.ldSTVx x) := of_masked (formatXF_masked _ _ _) rfl
theorem addI (x : Reg) : Statement (.addI x) := of_masked (formatXF_masked _ _ _) rfl
theorem ldF (x : Reg) : Statement (.ldF x) := of_masked (formatXF_masked _ _ _) rfl
theorem ldB (x : Reg) : Statement (.ldB x) := of_masked (formatXF_masked _ _ _) rfl
theorem storeRegs (x : Reg) : Statement (.storeRegs x) := of_masked (formatXF_masked _ _ _) rfl
theorem loadRegs (x : Reg) : Statement (.loadRegs x) := of_masked (formatXF_masked _ _ _) rfl

end Sys2Proof.Laws.RowMatch
end

