-- ==== Sys2Proof/Tests/Slice0.lean ====
section
/-! SUPPORT. The model's own tests. The expected result of every test is from spec/95_test_vectors.md, named in its
docstring, or from the encodings of 30_encoding.md R77 written out bit by bit; none is the model's answer. After them,
one witness for the hypotheses of each obligation that has some. -/

namespace Sys2Proof.Tests

open Sys2Proof Sys2Proof.Machine

/-! ### Helpers -/

/-- The reset state with one table word where the next step fetches it. -/
def launch (w : Nat) : State := State.reset.withFetchWord 16 w

/-- A state with some registers set. -/
def regs (s : State) (rs : List (Reg × Byte)) : State := rs.foldl (fun t r => t.setV r.1 r.2) s

/-- A state with some bytes of memory set from an address on. -/
def bytes (s : State) (a : Nat) (bs : List Byte) : State := { s with mem := s.mem.writeList a bs }

/-- A state with the index register set. -/
def index (s : State) (i : Word) : State := s.setI i

/-- A state with some cells lit, each given as row and column. -/
def light (s : State) (cs : List (Fin 32 × Fin 64)) : State := cs.foldl (fun t c => t.flipCell c.1 c.2) s

/-- What `f` sees of the next state; nothing when the step does not complete. -/
def nextView {α : Type} (o : Result) (f : State → α) : Option α :=
  match o with
  | .next s => some (f s)
  | .fault _ => none
  | .refused _ => none

/-- The code of the fault and what `f` sees of the state it leaves; nothing when the step does not fault. -/
def faultView {α : Type} (o : Result) (f : State → α) : Option (Nat × α) :=
  match o with
  | .next _ => none
  | .fault r => some (r.code, f r.leftState)
  | .refused _ => none

/-- The number of lit cells of a state. -/
def litCount (s : State) : Nat := (s.display.toList.map fun r => (r.toList.filter id).length).sum

/-! ### Well-formedness refuses an ill-formed term -/

/-- 30_encoding.md R71: the field `n` has four bits. -/
theorem test_wellFormed_refuses_row_count :
    (Instr.drw 0 0 16).wellFormed = false ∧ (Instr.drw 0 0 15).wellFormed = true := by decide

/-! ### Decoding: a word of every constructor, bit by bit from 30_encoding.md R77 -/

/-- 40_flow.md R100 to R107. -/
theorem test_decode_flow :
    decodeWord 0b0001101010111100 = .ok (.jp 0xABC) ∧
    decodeWord 0b0010001100000000 = .ok (.call 0x300) ∧
    decodeWord 0b0000000011101110 = .ok .ret ∧
    decodeWord 0b1011001100000000 = .ok (.jpV0 0x300) ∧
    decodeWord 0b0011101000000101 = .ok (.seImm 10 5) ∧
    decodeWord 0b0100101000000101 = .ok (.sneImm 10 5) ∧
    decodeWord 0b0101000100100000 = .ok (.seReg 1 2) ∧
    decodeWord 0b1001000100100000 = .ok (.sneReg 1 2) := by decide

/-- 41_alu.md R120 to R131. -/
theorem test_decode_alu :
    decodeWord 0b0110101000101100 = .ok (.ldImm 10 0x2C) ∧
    decodeWord 0b0111101000000101 = .ok (.addImm 10 5) ∧
    decodeWord 0b1000000100100000 = .ok (.ldReg 1 2) ∧
    decodeWord 0b1000000100100001 = .ok (.orReg 1 2) ∧
    decodeWord 0b1000000100100010 = .ok (.andReg 1 2) ∧
    decodeWord 0b1000000100100011 = .ok (.xorReg 1 2) ∧
    decodeWord 0b1000000100100100 = .ok (.addReg 1 2) ∧
    decodeWord 0b1000000100100101 = .ok (.subReg 1 2) ∧
    decodeWord 0b1000000100100110 = .ok (.shr 1 2) ∧
    decodeWord 0b1000000100100111 = .ok (.subnReg 1 2) ∧
    decodeWord 0b1000000100101110 = .ok (.shl 1 2) ∧
    decodeWord 0b1100000100001111 = .ok (.rnd 1 0x0F) := by decide

/-- 42_index_memory.md R141 to R146. -/
theorem test_decode_index_memory :
    decodeWord 0b1010001011110000 = .ok (.ldI 0x2F0) ∧
    decodeWord 0b1111000100011110 = .ok (.addI 1) ∧
    decodeWord 0b1111000100101001 = .ok (.ldF 1) ∧
    decodeWord 0b1111000100110011 = .ok (.ldB 1) ∧
    decodeWord 0b1111001001010101 = .ok (.storeRegs 2) ∧
    decodeWord 0b1111001001100101 = .ok (.loadRegs 2) := by decide

/-- 43_display.md R160, R161. -/
theorem test_decode_display :
    decodeWord 0b0000000011100000 = .ok .cls ∧
    decodeWord 0b1101000100100101 = .ok (.drw 1 2 5) := by decide

/-- 44_keypad_timers.md R170 to R175. -/
theorem test_decode_keypad_timers :
    decodeWord 0b1110000110011110 = .ok (.skp 1) ∧
    decodeWord 0b1110000110100001 = .ok (.sknp 1) ∧
    decodeWord 0b1111000100001010 = .ok (.ldVxK 1) ∧
    decodeWord 0b1111000100000111 = .ok (.ldVxDT 1) ∧
    decodeWord 0b1111000100010101 = .ok (.ldDTVx 1) ∧
    decodeWord 0b1111000100011000 = .ok (.ldSTVx 1) := by decide

/-- 95_test_vectors.md 2.1: words that match no instruction. -/
theorem test_decode_rejects :
    ([0x0000, 0x00E1, 0x00EF, 0x00F0, 0x0123, 0x01E0, 0x0FFF, 0x5121, 0x512F, 0x9121, 0x8128, 0x812D, 0x812F] ++
     [0xE100, 0xE19F, 0xE1A0, 0xF100, 0xF108, 0xF11F, 0xF166, 0xF175, 0xF185, 0xF1FF]).all
      (fun w => decide (decodeTableWord 16 w = none)) = true := by decide

/-- 30_encoding.md R70: an instruction is two bytes. -/
theorem test_decode_too_few :
    decode [0x12] = .error .tooFewBytes := by decide

/-! ### Fetch -/

/-- V-F1. -/
theorem test_fetch_big_endian :
    nextView (step (bytes State.reset 0x200 [0x12, 0x34])) (fun s => (s.opcode, s.pc)) = some (0x1234, 0x234) := by decide

/-- V-F5: `pc` and the latch unchanged. -/
theorem test_fetch_bound :
    faultView (step { State.reset with pc := 0xFFF }) (fun s => (s.pc, s.opcode)) = some (2, 0xFFF, 0) := by decide

/-! ### Control transfer (95_test_vectors.md 2.2) -/

/-- V-J1. -/
theorem test_jp :
    nextView (step (launch 0x1ABC)) (fun s => s.pc) = some 0xABC := by decide

/-- V-J5. -/
theorem test_call :
    nextView (step { launch 0x2300 with sp := 15 }) (fun s => (s.stack[15], s.sp, s.pc)) = some (0x202, 16, 0x300) := by decide

/-- V-J6. -/
theorem test_call_overflow :
    faultView (step { launch 0x2300 with sp := 16 }) (fun s => (s.sp, s.pc)) = some (4, 16, 0x202) := by decide

/-- V-J9. -/
theorem test_ret :
    nextView (step { launch 0x00EE with sp := 16, stack := State.reset.stack.set 15 0xABC }) (fun s => (s.sp, s.pc)) =
      some (15, 0xABC) := by decide

/-- V-J8. -/
theorem test_ret_underflow :
    faultView (step (launch 0x00EE)) (fun s => (s.sp, s.pc)) = some (5, 0, 0x202) := by decide

/-- V-J11. -/
theorem test_jpV0 :
    nextView (step (regs (launch 0xBFFF) [(0, 0xFF)])) (fun s => s.pc) = some 0x10FE := by decide

/-- V-J12, V-J13. -/
theorem test_seImm :
    nextView (step (regs (launch 0x3A05) [(10, 5)])) (fun s => s.pc) = some 0x204 ∧
    nextView (step (regs (launch 0x3A05) [(10, 6)])) (fun s => s.pc) = some 0x202 := by decide

/-- V-J14, V-J15. -/
theorem test_sneImm :
    nextView (step (regs (launch 0x4A05) [(10, 5)])) (fun s => s.pc) = some 0x202 ∧
    nextView (step (regs (launch 0x4A05) [(10, 6)])) (fun s => s.pc) = some 0x204 := by decide

/-- V-J16, V-J17. -/
theorem test_seReg :
    nextView (step (regs (launch 0x5120) [(1, 7), (2, 7)])) (fun s => s.pc) = some 0x204 ∧
    nextView (step (regs (launch 0x5120) [(1, 7), (2, 8)])) (fun s => s.pc) = some 0x202 := by decide

/-- V-J19, V-J20. -/
theorem test_sneReg :
    nextView (step (regs (launch 0x9120) [(1, 7), (2, 8)])) (fun s => s.pc) = some 0x204 ∧
    nextView (step (regs (launch 0x9120) [(1, 7), (2, 7)])) (fun s => s.pc) = some 0x202 := by decide

/-! ### Loads, arithmetic, logic, shifts, random (95_test_vectors.md 2.3) -/

/-- V-A1. -/
theorem test_ldImm :
    nextView (step (regs (launch 0x6A2C) [])) (fun s => (s.getV 10, s.getV 15)) = some (0x2C, 0) := by decide

/-- V-A4: no carry flag. -/
theorem test_addImm :
    nextView (step (regs (launch 0x7101) [(1, 0xFF)])) (fun s => (s.getV 1, s.getV 15)) = some (0, 0) := by decide

/-- V-A6. -/
theorem test_ldReg :
    nextView (step (regs (launch 0x8120) [(2, 0x33)])) (fun s => (s.getV 1, s.getV 15)) = some (0x33, 0) := by decide

/-- V-A8: `VF` stays 1. -/
theorem test_orReg :
    nextView (step (regs (launch 0x8121) [(1, 0xF0), (2, 0x0F), (15, 1)])) (fun s => (s.getV 1, s.getV 15)) = some (0xFF, 1) := by decide

/-- V-A9: `VF` stays 1. -/
theorem test_andReg :
    nextView (step (regs (launch 0x8122) [(1, 0xF0), (2, 0x3C), (15, 1)])) (fun s => (s.getV 1, s.getV 15)) = some (0x30, 1) := by decide

/-- V-A10: `VF` stays 1. -/
theorem test_xorReg :
    nextView (step (regs (launch 0x8123) [(1, 0xF0), (2, 0x3C), (15, 1)])) (fun s => (s.getV 1, s.getV 15)) = some (0xCC, 1) := by decide

/-- V-A12. -/
theorem test_addReg :
    nextView (step (regs (launch 0x8124) [(1, 250), (2, 10)])) (fun s => (s.getV 1, s.getV 15)) = some (4, 1) := by decide

/-- V-A20: the carry is lost. -/
theorem test_addReg_into_flag :
    nextView (step (regs (launch 0x8F14) [(15, 0xF0), (1, 0x20)])) (fun s => (s.getV 1, s.getV 15)) = some (0x20, 0x10) := by decide

/-- V-A25: equal operands. -/
theorem test_subReg :
    nextView (step (regs (launch 0x8125) [(1, 7), (2, 7), (15, 1)])) (fun s => (s.getV 1, s.getV 15)) = some (0, 0) := by decide

/-- V-A28: the subtrahend is read after the flag write. -/
theorem test_subReg_from_flag :
    nextView (step (regs (launch 0x81F5) [(1, 5), (15, 3)])) (fun s => (s.getV 1, s.getV 15)) = some (4, 1) := by decide

/-- V-A35. -/
theorem test_subnReg :
    nextView (step (regs (launch 0x8127) [(1, 5), (2, 3), (15, 1)])) (fun s => (s.getV 1, s.getV 15)) = some (254, 0) := by decide

/-- V-A39. -/
theorem test_subnReg_into_flag :
    nextView (step (regs (launch 0x8F17) [(15, 2), (1, 4)])) (fun s => (s.getV 1, s.getV 15)) = some (4, 3) := by decide

/-- V-A43: `V[2]` is not used. -/
theorem test_shr :
    nextView (step (regs (launch 0x8126) [(1, 4), (2, 0xFF), (15, 1)])) (fun s => (s.getV 1, s.getV 15)) = some (2, 0) := by decide

/-- V-A47. -/
theorem test_shr_flag :
    nextView (step (regs (launch 0x8F06) [(15, 0xFF)])) (fun s => (s.getV 1, s.getV 15)) = some (0, 0) := by decide

/-- V-A49. -/
theorem test_shl :
    nextView (step (regs (launch 0x810E) [(1, 0x81)])) (fun s => (s.getV 1, s.getV 15)) = some (2, 1) := by decide

/-- V-A52. -/
theorem test_shl_flag :
    nextView (step (regs (launch 0x8F0E) [(15, 0xFF)])) (fun s => (s.getV 1, s.getV 15)) = some (0, 2) := by decide

/-- V-A58: the result is the draw under the mask, whatever the draw. -/
theorem test_rnd : nextView (exec (.rnd 1 0x3C) State.reset) (fun s => s.getV 1) = some (Config.randomByte 0 &&& 0x3C) :=
  rfl

/-! ### Index register and memory (95_test_vectors.md 2.4) -/

/-- V-M1. -/
theorem test_ldI :
    nextView (step (index (launch 0xA2F0) 0xFFFF)) (fun s => s.I) = some 0x02F0 := by decide

/-- V-M3: wraps at 65536, no flag. -/
theorem test_addI :
    nextView (step (regs (index (launch 0xF11E) 0xFFFF) [(1, 2)])) (fun s => (s.I, s.getV 15)) = some (1, 0) := by decide

/-- V-M6. -/
theorem test_ldF :
    nextView (step (regs (launch 0xF129) [(1, 0x0A)])) (fun s => s.I) = some 0x82 := by decide

/-- V-M9. -/
theorem test_ldF_no_mask :
    nextView (step (regs (launch 0xF129) [(1, 0xFF)])) (fun s => s.I) = some 0x54B := by decide

/-- V-M14. -/
theorem test_ldB :
    nextView (step (regs (index (launch 0xF133) 0xFFD) [(1, 109)]))
      (fun s => (s.byteAt 0xFFD, s.byteAt 0xFFE, s.byteAt 0xFFF)) = some (1, 0, 9) := by decide

/-- V-M15. -/
theorem test_ldB_partial :
    faultView (step (regs (index (launch 0xF133) 0xFFE) [(1, 234)]))
      (fun s => (s.byteAt 0xFFE, s.byteAt 0xFFF, s.pc)) = some (3, 2, 3, 0x202) := by decide

/-- V-M17. -/
theorem test_storeRegs :
    nextView (step (regs (index (launch 0xF255) 0x400) [(0, 0x11), (1, 0x22), (2, 0x33), (3, 0x44)]))
      (fun s => (s.byteAt 0x400, s.byteAt 0x401, s.byteAt 0x402, s.byteAt 0x403, s.I)) =
      some (0x11, 0x22, 0x33, 0, 0x400) := by decide

/-- V-M19. -/
theorem test_storeRegs_partial :
    faultView (step (regs (index (launch 0xF155) 0xFFF) [(0, 0xAA), (1, 0xBB)])) (fun s => s.byteAt 0xFFF) = some (3, 0xAA) := by decide

/-- V-M21. -/
theorem test_loadRegs :
    nextView (step (regs (index (bytes (launch 0xF165) 0x400 [0xAB, 0xCD, 0xEF]) 0x400) [(2, 0x77)]))
      (fun s => (s.getV 0, s.getV 1, s.getV 2, s.I)) = some (0xAB, 0xCD, 0x77, 0x400) := by decide

/-- V-M22. -/
theorem test_loadRegs_partial :
    faultView (step (regs (index (bytes (launch 0xF265) 0xFFE [0x5A, 0xA5]) 0xFFE) [(0, 1), (1, 2), (2, 3)]))
      (fun s => (s.getV 0, s.getV 1, s.getV 2)) = some (3, 0x5A, 0xA5, 3) := by decide

/-! ### Display (95_test_vectors.md 2.5) -/

/-- V-D1: `VF` stays 1. -/
theorem test_cls :
    nextView (step (light (regs (launch 0x00E0) [(15, 1)]) [(0, 0), (31, 63)])) (fun s => (litCount s, s.getV 15)) = some (0, 1) := by decide

/-- V-D10. -/
theorem test_drw_collision :
    nextView (step (light (index (bytes (regs (launch 0xD121) [(1, 4), (2, 2)]) 0x300 [0xF0]) 0x300) [(2, 5)]))
      (fun s => (litCount s, s.cell 2 4, s.cell 2 5, s.cell 2 6, s.cell 2 7, s.getV 15)) =
      some (3, true, false, true, true, 1) := by decide

/-- V-D5. -/
theorem test_drw_off_grid :
    faultView (step (index (bytes (regs (launch 0xD125) [(1, 62)]) 0x300 [0xE0, 0xE0, 0xE0, 0xE0, 0xE0]) 0x300))
      (fun s => (litCount s, s.cell 0 62, s.cell 0 63, s.getV 15)) = some (6, 2, true, true, 0) := by decide

/-! ### Keypad and timers (95_test_vectors.md 2.6) -/

/-- V-K1, V-K3: the value of `V[1]`, not the field. -/
theorem test_skp :
    nextView (step (setKey 10 true (regs (launch 0xE19E) [(1, 10)]))) (fun s => s.pc) = some 0x204 ∧
    nextView (step (setKey 1 true (regs (launch 0xE19E) [(1, 10)]))) (fun s => s.pc) = some 0x202 := by decide

/-- V-K4. -/
theorem test_skp_no_such_key :
    faultView (step (setKey 0 true (regs (launch 0xE19E) [(1, 16)]))) (fun s => s.pc) = some (7, 0x202) := by decide

/-- V-K5, V-K6. -/
theorem test_sknp :
    nextView (step (regs (launch 0xE1A1) [(1, 3)])) (fun s => s.pc) = some 0x204 ∧
    nextView (step (setKey 3 true (regs (launch 0xE1A1) [(1, 3)]))) (fun s => s.pc) = some 0x202 := by decide

/-- V-K10: the lowest key. -/
theorem test_ldVxK :
    nextView (step (setKey 3 true (setKey 7 true (launch 0xF10A)))) (fun s => (s.getV 1, s.pc)) = some (3, 0x202) := by decide

/-- V-K8. -/
theorem test_ldVxK_waits :
    nextView (step (regs (launch 0xF10A) [(1, 0x55)])) (fun s => (s.getV 1, s.pc, s.opcode)) = some (0x55, 0x200, 0xF10A) := by decide

/-- V-K13. -/
theorem test_ldVxDT :
    nextView (step { launch 0xF107 with DT := 60 }) (fun s => (s.getV 1, s.DT)) = some (60, 60) := by decide

/-- V-K15. -/
theorem test_ldDTVx :
    nextView (step (regs (launch 0xF115) [(1, 60)])) (fun s => (s.DT, s.ST)) = some (60, 0) := by decide

/-- V-K17. -/
theorem test_ldSTVx :
    nextView (step (regs (launch 0xF118) [(1, 5)])) (fun s => (s.DT, s.ST)) = some (0, 5) := by decide

/-- V-T1. -/
theorem test_tick :
    (tick { State.reset with DT := 5 }).DT = 4 ∧ (tick { State.reset with DT := 5 }).ST = 0 := by decide

/-- V-J2 is a jump to its own address, V-J1 is none: the convention of log 17. -/
theorem test_ended :
    (launch 0x1200).ended = true ∧ (launch 0x1ABC).ended = false ∧ State.reset.ended = false := by decide

/-! ### Witnesses: a state and operands that meet the hypotheses of each obligation, each clause at a boundary -/

/-- Whether a step completes. -/
def completes (o : Result) : Bool := (nextView o fun _ => ()).isSome

/-- Whether a step faults. -/
def faults (o : Result) : Bool := (faultView o fun _ => ()).isSome

theorem next_of_completes : ∀ {o : Result}, completes o = true → ∃ t, o = .next t
  | .next t, _ => ⟨t, rfl⟩

theorem fault_of_faults : ∀ {o : Result}, faults o = true → ∃ f, o = .fault f
  | .fault f, _ => ⟨f, rfl⟩

/-- A state's leavings, from a step that completes. -/
theorem leaves_of_completes {o : Result} (h : completes o = true) : ∃ t, leaves o = some t :=
  (next_of_completes h).imp fun _ e => by rw [e]; rfl

/-- A state's leavings, from a step that faults. -/
theorem leaves_of_faults {o : Result} (h : faults o = true) : ∃ t, leaves o = some t :=
  (fault_of_faults h).elim fun f e => ⟨f.leftState, by rw [e]; rfl⟩

/-- The reset state with another `pc`. -/
def pcAt (p : Word) : State := { State.reset with pc := p }

/-- Both sides of the fetch bound, and at the last legal `pc` a word that decodes and one that does not. -/
theorem witness_StepFollowsTheAlgorithm :
    4095 < (pcAt 0xFFF).pc.toNat + 1 ∧ (pcAt 0xFFE).pc.toNat + 1 ≤ 4095 ∧
    (pcAt 0xFFE).fetchedWord.toNat =
      ((pcAt 0xFFE).byteAt 0xFFE).toNat * 256 + ((pcAt 0xFFE).byteAt 0xFFF).toNat ∧
    decodeWord (bytes (pcAt 0xFFE) 0xFFE [0x6A, 0x01]).fetchedWord = .ok (.ldImm 10 1) ∧
    decodeWord (pcAt 0xFFE).fetchedWord = .error (.unknownOpcode 0) := by decide

theorem witness_StepRunsTheDecodedInstruction :
    (Instr.drw 1 2 15).wellFormed = true ∧ (pcAt 0xFFE).pc.toNat + 1 ≤ 4095 ∧
    decode [(bytes (pcAt 0xFFE) 0xFFE [0xD1, 0x2F]).byteAt 0xFFE, (bytes (pcAt 0xFFE) 0xFFE [0xD1, 0x2F]).byteAt 0xFFF] =
      .ok (.drw 1 2 15, []) := by decide

theorem witness_StepLatchesTheFetchedWord :
    (∃ t, step (launch 0x6A01) = .next t) ∧ (∃ f, step (pcAt 0xFFE) = .fault f) ∧ (∃ f, step (pcAt 0xFFF) = .fault f) :=
  ⟨next_of_completes (by decide), fault_of_faults (by decide), fault_of_faults (by decide)⟩

theorem witness_FieldsOfAWord : wordOf 0xD1 0x2F = 0xD12F := by decide

theorem witness_DecodeOfEncodeIsTheInstruction : (Instr.drw 15 15 15).wellFormed = true := by decide

/-- The hypothesis that a word decodes, of the two obligations about decoded words. -/
theorem witness_EncodeOfDecodeIsTheWord : decodeWord 0x81FE = .ok (.shl 1 15) := by decide

theorem witness_DispatchAgreesWithTheOpcodeMap : decodeWord 0xFF65 = .ok (.loadRegs 15) := by decide

theorem witness_CallPushesAndJumps :
    ({ State.reset with sp := 15 } : State).sp.val < 16 ∧ ({ State.reset with sp := 16 } : State).sp.val = 16 := by decide

theorem witness_RetPopsPc :
    0 < ({ State.reset with sp := 1 } : State).sp.val ∧ 0 < ({ State.reset with sp := 16 } : State).sp.val ∧
    State.reset.sp.val = 0 := by decide

theorem witness_CallThenRetReturns : ({ State.reset with sp := 15 } : State).sp.val < 16 := by decide

theorem witness_MemoryAccessReadsAndWrites : State.reset.mem.wf = true ∧ 4095 ≤ 4095 ∧ 4095 < 4096 := by decide

theorem witness_BcdStoresThreeDigits :
    (launch 0xF133).mem.wf = true ∧ indexAddr (index (launch 0xF133) 0xFFD) 2 ≤ 4095 ∧
    (4095 < indexAddr (index (launch 0xF133) 0x1000) 0 ∧ ∀ j < 0, indexAddr (index (launch 0xF133) 0x1000) j ≤ 4095) ∧
    (4095 < indexAddr (index (launch 0xF133) 0xFFE) 2 ∧ ∀ j < 2, indexAddr (index (launch 0xF133) 0xFFE) j ≤ 4095) := by
  decide

theorem witness_BlockStoreWritesMemory :
    (launch 0xFF55).mem.wf = true ∧ indexAddr (index (launch 0xFF55) 0xFF0) (15 : Reg).val ≤ 4095 ∧
    (4095 < indexAddr (index (launch 0xFF55) 0xFF1) 15 ∧ ∀ j < 15, indexAddr (index (launch 0xFF55) 0xFF1) j ≤ 4095) ∧
    (4095 < indexAddr (index (launch 0xFF55) 0x1000) 0 ∧ ∀ j < 0, indexAddr (index (launch 0xFF55) 0x1000) j ≤ 4095) := by
  decide

theorem witness_BlockLoadWritesRegisters :
    indexAddr (index (launch 0xF065) 0xFFF) (0 : Reg).val ≤ 4095 ∧
    (4095 < indexAddr (index (launch 0xFF65) 0xFF1) 15 ∧ ∀ j < 15, indexAddr (index (launch 0xFF65) 0xFF1) j ≤ 4095) ∧
    (4095 < indexAddr (index (launch 0xF065) 0x1000) 0 ∧ ∀ j < 0, indexAddr (index (launch 0xF065) 0x1000) j ≤ 4095) := by
  decide

theorem witness_BlockStoreThenLoadRestores :
    ∃ t u : State, (index State.reset 0xFF0).mem.wf = true ∧ exec (.storeRegs 15) (index State.reset 0xFF0) = .next t ∧
      u.mem = t.mem ∧ u.I = (index State.reset 0xFF0).I ∧ u.getV 0 ≠ t.getV 0 :=
  (next_of_completes (o := exec (.storeRegs 15) (index State.reset 0xFF0)) (by decide)).elim fun t h =>
    ⟨t, { State.reset with mem := t.mem, I := 0xFF0, V := Vector.replicate 16 (t.getV 0 + 1) }, by decide, h, rfl, rfl, by
      simp [State.getV]⟩

/-- Program P7: the bytes 12 08 are stored at `pc`, by a `k` at the end of its range. -/
theorem witness_StoreIsSeenByTheNextFetch :
    ∃ s t : State, s = regs { index State.reset 0x208 with pc := 0x208 } [(0, 0x12), (1, 0x08)] ∧ s.mem.wf = true ∧
      exec (.storeRegs 1) s = .next t ∧ s.pc.toNat = indexAddr s 0 ∧
      decodeWord (wordOf (s.getV 0) (s.getV 1)) = .ok (.jp 0x208) :=
  (next_of_completes (o := exec (.storeRegs 1) (regs { index State.reset 0x208 with pc := 0x208 } [(0, 0x12), (1, 0x08)]))
    (by decide)).elim fun t h => ⟨_, t, rfl, by decide, h, by decide, by decide⟩

/-- Glyph 0 of the font, its right half off the grid but unset, at the lowest and rightmost place it fits. -/
def glyphAtEdge : State := regs (index State.reset 0x50) [(0, 60), (1, 27)]

theorem witness_DrwXorsTheSpriteAndFlagsCollision : spriteFits glyphAtEdge 0 1 5 := by
  unfold spriteFits rowFits pixelFits
  decide

/-- One column further right it faults on the grid; with `I` past memory it faults on the read. -/
theorem witness_DrwFaultsAtTheFirstViolation :
    (∃ f, exec (.drw 0 1 5) (regs glyphAtEdge [(0, 61)]) = .fault f) ∧
    (∃ f, exec (.drw 0 1 1) (index glyphAtEdge 0x1000) = .fault f) :=
  ⟨fault_of_faults (by decide), fault_of_faults (by decide)⟩

theorem witness_DrwTwiceRestoresTheDisplay : (0 : Reg) ≠ 15 ∧ (1 : Reg) ≠ 15 ∧ spriteFits glyphAtEdge 0 1 5 :=
  ⟨by decide, by decide, witness_DrwXorsTheSpriteAndFlagsCollision⟩

theorem witness_DrwInsideTheGridCompletes :
    let s := regs (index State.reset 0xFF1) [(0, 56), (1, 17)]
    (s.getV 0).toNat ≤ 56 ∧ (s.getV 1).toNat + 15 ≤ 32 ∧ s.I.toNat + 15 ≤ 4096 := by decide

theorem witness_KeySkipsTestTheNamedKey :
    ((regs State.reset [(1, 15)]).getV 1).toNat < 16 ∧ 15 < ((regs State.reset [(1, 16)]).getV 1).toNat := by decide

theorem witness_KeyWaitLoadsTheLowestKey :
    ((setKey 15 true State.reset).keypad[(15 : Key).val] = true ∧
      ∀ j < (15 : Key), (setKey 15 true State.reset).keypad[j.val] = false) ∧
    ((setKey 0 true State.reset).keypad[(0 : Key).val] = true ∧
      ∀ j < (0 : Key), (setKey 0 true State.reset).keypad[j.val] = false) ∧
    ∀ k : Key, State.reset.keypad[k.val] = false := by decide

theorem witness_KeyWaitHoldsPcAcrossSteps :
    (launch 0xF10A).pc.toNat + 1 ≤ 4095 ∧ decodeWord (launch 0xF10A).fetchedWord = .ok (.ldVxK 1) ∧
    ∀ k : Key, (launch 0xF10A).keypad[k.val] = false := by decide

/-- A TICK, and a STEP of LD DT,Vx. -/
theorem witness_DelayTimerOnlyFalls :
    (∃ m r, transact .tick (Session.start fontTable) = .ok (m, r)) ∧
    (∃ m r, transact .step ⟨.loaded, launch 0xF115⟩ = .ok (m, r)) ∧
    (∀ font, Transaction.tick ≠ .reset font) ∧ ∀ font, Transaction.step ≠ .reset font :=
  ⟨⟨_, _, rfl⟩, (next_of_completes (o := step (launch 0xF115)) (by decide)).elim fun t h =>
    ⟨⟨.running, t⟩, .ok, by simp only [transact, transactStep, h, afterStep]⟩, by simp, by simp⟩

theorem witness_LaunchState : (List.replicate 3584 (0xFF : Byte)).length ≤ 3584 ∧ ([] : List Byte).length ≤ 3584 :=
  ⟨Nat.le_of_eq List.length_replicate, Nat.zero_le _⟩

/-- An image one byte too long; a LOAD of the empty image, then a STEP that faults and a TICK; and a first STEP. -/
theorem witness_LoadHappensOnceBeforeTheFirstStep :
    3584 < (List.replicate 3585 (0 : Byte)).length ∧
    (∃ m m' r, transact (.load []) (Session.start fontTable) = .ok (m, r) ∧ transactAll [.step, .tick] m = .ok m') ∧
    (∃ m m' r, transact .step (Session.start fontTable) = .ok (m, r) ∧ transactAll [.tick, .displayRead] m = .ok m') ∧
    (∀ u ∈ [Transaction.step, .tick], ∀ font, u ≠ .reset font) ∧
    ∀ u ∈ [Transaction.tick, .displayRead], ∀ font, u ≠ .reset font := by
  obtain ⟨f, hf⟩ := fault_of_faults (o := step (resetWith fontTable)) (by decide)
  have hl : load [] (resetWith fontTable) = resetWith fontTable := rfl
  refine ⟨by rw [List.length_replicate]; omega, ⟨⟨.loaded, resetWith fontTable⟩, ⟨.stopped, tick f.leftState⟩, .done, ?_, ?_⟩,
    ⟨⟨.stopped, f.leftState⟩, ⟨.stopped, tick f.leftState⟩, .fault f, ?_, ?_⟩, by simp, by simp⟩
  · simp [transact, transactLoad, Session.start, hl]
  · simp [transactAll, transact, transactStep, hf, afterStep]
  · simp [transact, transactStep, Session.start, hf, afterStep]
  · simp [transactAll, transact]

theorem witness_FaultedMachineStaysStopped :
    ∃ m m' f, transact .step (Session.start fontTable) = .ok (m, .fault f) ∧ transactAll [.tick, .displayRead] m = .ok m' ∧
      ∀ u ∈ [Transaction.tick, .displayRead], ∀ font, u ≠ .reset font := by
  obtain ⟨f, hf⟩ := fault_of_faults (o := step (resetWith fontTable)) (by decide)
  refine ⟨⟨.stopped, f.leftState⟩, ⟨.stopped, tick f.leftState⟩, f, ?_, ?_, by simp⟩
  · simp [transact, transactStep, Session.start, hf, afterStep]
  · simp [transactAll, transact]

/-- A jump to its own address at the last `pc` that can be fetched and at the first; a STEP and a TICK there. -/
theorem witness_EndedRunStaysEnded :
    (bytes (pcAt 0xFFE) 0xFFE [0x1F, 0xFE]).ended = true ∧ (bytes (pcAt 0) 0 [0x10, 0x00]).ended = true ∧
    (Session.mk .running (launch 0x1200)).endedWell = true ∧
    (∃ m r, transact .step ⟨.running, launch 0x1200⟩ = .ok (m, r)) ∧
    (∃ m r, transact .tick ⟨.running, launch 0x1200⟩ = .ok (m, r)) ∧
    (∀ font, Transaction.step ≠ .reset font) ∧ (∀ img, Transaction.step ≠ .load img) :=
  ⟨by decide, by decide, by decide, (next_of_completes (o := step (launch 0x1200)) (by decide)).elim fun t h =>
    ⟨⟨.running, t⟩, .ok, by simp only [transact, transactStep, h, afterStep]⟩, ⟨_, _, rfl⟩, by simp, by simp⟩

/-- A state at the bounds of the invariant, and one whose step completes and one whose step faults. -/
theorem witness_StepKeepsTheInvariant :
    (State.Inv { State.reset with pc := 0x10FE, stack := Vector.replicate 16 4096 }) ∧
    (State.reset.Inv ∧ ∃ t, leaves (step State.reset) = some t) ∧
    ((launch 0x00E0).Inv ∧ ∃ t, leaves (step (launch 0x00E0)) = some t) :=
  ⟨⟨by decide, by decide, by decide⟩, ⟨⟨by decide, by decide, by decide⟩, leaves_of_faults (by decide)⟩,
    ⟨by decide, by decide, by decide⟩, leaves_of_completes (by decide)⟩

theorem witness_SessionsKeepTheInvariant :
    ∃ m, transactAll [.load [], .keys (Vector.replicate 16 true), .tick, .displayRead] (Session.start fontTable) = .ok m :=
  ⟨_, rfl⟩

/-- The conditions of `Runnable` at their bounds, each side. -/
theorem witness_CompletesExactlyWhenRunnable :
    Runnable .ret { State.reset with sp := 1 } ∧ ¬ Runnable .ret State.reset ∧
    Runnable (.call 0) { State.reset with sp := 15 } ∧ ¬ Runnable (.call 0) { State.reset with sp := 16 } ∧
    Runnable (.skp 1) (regs State.reset [(1, 15)]) ∧ ¬ Runnable (.sknp 1) (regs State.reset [(1, 16)]) ∧
    Runnable (.ldB 1) (index State.reset 0xFFD) ∧ ¬ Runnable (.ldB 1) (index State.reset 0xFFE) ∧
    Runnable (.loadRegs 15) (index State.reset 0xFF0) ∧ ¬ Runnable (.storeRegs 15) (index State.reset 0xFF1) := by
  unfold Runnable
  decide

/-- One fault of each instruction that has some. -/
theorem witness_FaultsByInstruction :
    (∃ f, exec (.call 0) { State.reset with sp := 16 } = .fault f) ∧ (∃ f, exec .ret State.reset = .fault f) ∧
    (∃ f, exec (.drw 0 1 1) (index State.reset 0x1000) = .fault f) ∧
    (∃ f, exec (.ldB 0) (index State.reset 0xFFE) = .fault f) ∧
    (∃ f, exec (.storeRegs 1) (index State.reset 0xFFF) = .fault f) ∧
    (∃ f, exec (.loadRegs 1) (index State.reset 0xFFF) = .fault f) ∧
    (∃ f, exec (.skp 1) (regs State.reset [(1, 16)]) = .fault f) ∧
    (∃ f, exec (.sknp 1) (regs State.reset [(1, 255)]) = .fault f) :=
  ⟨fault_of_faults (by decide), fault_of_faults (by decide), fault_of_faults (by decide), fault_of_faults (by decide),
    fault_of_faults (by decide), fault_of_faults (by decide), fault_of_faults (by decide), fault_of_faults (by decide)⟩

/-- A block store that completes and one that faults; the frame's clauses about other registers and bytes. -/
theorem witness_RegistersAndMemoryOutsideTheDestinationStay :
    (∃ t, leaves (exec (.storeRegs 15) (index State.reset 0xFF0)) = some t) ∧
    (∃ t, leaves (exec (.storeRegs 15) (index State.reset 0xFF1)) = some t) ∧
    (∃ t, leaves (exec (.ldB 15) (index State.reset 0xFFD)) = some t) ∧
    (∃ t, leaves (exec (.loadRegs 3) (index State.reset 0x50)) = some t) ∧
    mayWrite (.storeRegs 15) 0 = false ∧ mayWrite (.loadRegs 3) 4 = false ∧ mayWrite (.loadRegs 3) 3 = true ∧
    (∀ x, Instr.loadRegs 3 ≠ .ldB x ∧ Instr.loadRegs 3 ≠ .storeRegs x) :=
  ⟨leaves_of_completes (by decide), leaves_of_faults (by decide), leaves_of_completes (by decide),
    leaves_of_completes (by decide), by decide, by decide, by decide, by decide⟩

/-- Each piece of state is changed by some instruction named for it. -/
theorem witness_OnlyTheNamedInstructionsWrite :
    nextView (exec (.storeRegs 0) (regs (index State.reset 0x300) [(0, 1)])) (fun t => decide (t.mem ≠ State.reset.mem)) = some true ∧
    nextView (exec (.addI 1) (regs State.reset [(1, 1)])) (fun t => decide (t.I ≠ State.reset.I)) = some true ∧
    nextView (exec (.ldVxK 1) State.reset) (fun t => decide (t.pc ≠ State.reset.pc)) = some true ∧
    nextView (exec (.call 0) State.reset) (fun t => decide (t.stack ≠ State.reset.stack ∧ t.sp ≠ State.reset.sp)) = some true ∧
    nextView (exec (.ldDTVx 1) (regs State.reset [(1, 1)])) (fun t => decide (t.DT ≠ State.reset.DT)) = some true ∧
    nextView (exec (.ldSTVx 1) (regs State.reset [(1, 1)])) (fun t => decide (t.ST ≠ State.reset.ST)) = some true ∧
    nextView (exec (.drw 0 1 1) (index State.reset 0x50)) (fun t => decide (t.cell 0 0 ≠ State.reset.cell 0 0)) = some true := by
  decide

theorem witness_LatchAndSoundTimerAreNeverRead :
    (∃ t, exec (.ldSTVx 1) (regs State.reset [(1, 5)]) = .next t) ∧ ∃ t, exec (.ldVxDT 1) State.reset = .next t :=
  ⟨⟨_, rfl⟩, ⟨_, rfl⟩⟩

/-- A skip at the last legal `pc`, and a waiting LD Vx,K. -/
theorem witness_StepAdvancesPcByInstruction :
    (∃ t, step (bytes (pcAt 0xFFE) 0xFFE [0x30, 0x00]) = .next t) ∧
    decodeWord (bytes (pcAt 0xFFE) 0xFFE [0x30, 0x00]).fetchedWord = .ok (.seImm 0 0) ∧
    (∃ t, step (launch 0xF10A) = .next t) ∧ decodeWord (launch 0xF10A).fetchedWord = .ok (.ldVxK 1) :=
  ⟨next_of_completes (by decide), by decide, next_of_completes (by decide), by decide⟩

end Sys2Proof.Tests
end

section
/-! PROOFS. 20_memory.md: the one read and the one write of memory. -/

namespace Sys2Proof.Machine

/-- 20_memory.md R53: the bytes after a completed write. -/
theorem memWrite_stores_one_byte {s : State} (hm : s.mem.wf = true) {a : Nat} (ha : a ≤ 4095) (v : Byte) :
    ∃ t : State, memWrite a v s = .next t ∧ t = { s with mem := t.mem } ∧
      ∀ c, t.byteAt c = if c = a then v else s.byteAt c :=
  ⟨{ s with mem := s.mem.write a v }, memWrite_of_le ha v s, rfl, fun c => Memory.read_write hm a c v⟩

/-- Settles O25, by the two sides of the bound 4095: below it the write's bytes are the memory law of a read after a
write, above it both accesses raise before they touch the state. -/
theorem memoryAccessReadsAndWrites : Obligations.MemoryAccessReadsAndWrites := by
  intro a v s f hm
  constructor
  · intro ha
    exact ⟨memRead_of_le ha s f, memWrite_stores_one_byte hm ha v⟩
  · intro ha
    exact ⟨memRead_of_gt ha s f, memWrite_of_gt ha v s⟩

end Sys2Proof.Machine
end

section
/-! PROOFS. 30_encoding.md R71: the fields of a word, and the word of two bytes, as numbers. -/

namespace Sys2Proof

/-- The number of `len` bits taken from bit `start` on. -/
theorem toNat_field {n : Nat} (v : BitVec n) (start len : Nat) :
    (v.extractLsb' start len).toNat = v.toNat / 2 ^ start % 2 ^ len := by
  rw [BitVec.extractLsb'_toNat, Nat.shiftRight_eq_div_pow]

/-- The number of the low `len` bits. -/
theorem toNat_lowField {n : Nat} (v : BitVec n) (len : Nat) : (v.extractLsb' 0 len).toNat = v.toNat % 2 ^ len := by
  rw [toNat_field, Nat.pow_zero, Nat.div_one]

theorem toNat_fieldOp (w : Word) : (fieldOp w).toNat = w.toNat / 4096 := by
  have hw : w.toNat < 65536 := w.isLt
  rw [fieldOp, toNat_field]
  omega

theorem toNat_fieldX (w : Word) : (fieldX w).toNat = w.toNat / 256 % 16 := toNat_field w 8 4

theorem toNat_fieldY (w : Word) : (fieldY w).toNat = w.toNat / 16 % 16 := toNat_field w 4 4

theorem toNat_fieldN (w : Word) : (fieldN w).toNat = w.toNat % 16 := toNat_lowField w 4

theorem toNat_fieldKK (w : Word) : (fieldKK w).toNat = w.toNat % 256 := toNat_lowField w 8

theorem toNat_fieldNNN (w : Word) : (fieldNNN w).toNat = w.toNat % 4096 := toNat_lowField w 12

/-- The word of two bytes is big-endian: the byte at the lower address counts 256 (20_memory.md R55). -/
theorem toNat_wordOf (hi lo : Byte) : (wordOf hi lo).toNat = hi.toNat * 256 + lo.toNat := by
  rw [wordOf, BitVec.toNat_append, ← Nat.shiftLeft_add_eq_or_of_lt lo.isLt, Nat.shiftLeft_eq]

/-- Settles O4: each field is a quotient and a remainder of the word's number, and the overlaps and the two bytes are
arithmetic on those. -/
theorem fieldsOfAWord : Obligations.FieldsOfAWord := by
  intro w
  rw [toNat_fieldOp, toNat_fieldX, toNat_fieldY, toNat_fieldN, toNat_fieldKK, toNat_fieldNNN]
  refine ⟨rfl, rfl, rfl, rfl, rfl, rfl, by omega, by omega, ?_⟩
  rintro hi lo rfl
  have hhi : hi.toNat < 256 := hi.isLt
  have hlo : lo.toNat < 256 := lo.isLt
  rw [toNat_wordOf]
  constructor <;> omega

end Sys2Proof
end

section
/-! PROOFS. 30_encoding.md R72: the STEP algorithm, line by line. -/

namespace Sys2Proof.Machine

/-- Lines 1 and 2: a step whose fetch leaves memory faults and touches nothing. -/
theorem step_of_fetch_outside {s : State} (h : 4095 < s.pc.toNat + 1) : step s = .fault (.fetchOutOfBounds s.pc s) := by
  rw [step, fetch_of_gt h, andThen_fault]

/-- Lines 3 and 4: a step whose fetch is in memory goes on with the word latched and `pc` advanced. -/
theorem step_of_fetch_inside {s : State} (h : s.pc.toNat + 1 ≤ 4095) :
    step s = execLatched { s with opcode := s.fetchedWord, pc := s.pc + 2 } := by
  rw [step, fetch_of_le h, andThen_next]

/-- Line 6: the instruction selected for the latched word runs. -/
theorem execLatched_of_ok {s : State} {i : Instr} (h : decodeWord s.opcode = .ok i) : execLatched s = exec i s := by
  rw [execLatched, h]

/-- Line 5: a latched word that selects nothing faults by its name and changes nothing. -/
theorem execLatched_of_error {s : State} {e : DecodeError} (h : decodeWord s.opcode = .error e) :
    execLatched s = .fault (.unknownOpcode s.opcode s) := by
  rw [execLatched, h, raise]

/-- The fetched word is known by its number, from the two bytes at `pc`. -/
theorem fetchedWord_eq_of_toNat {s : State} {w : Word}
    (h : w.toNat = (s.byteAt s.pc.toNat).toNat * 256 + (s.byteAt (s.pc.toNat + 1)).toNat) : s.fetchedWord = w :=
  BitVec.eq_of_toNat_eq ((toNat_wordOf _ _).trans h.symm)

/-- Settles O1, by the lines of the algorithm: outside memory the fetch faults; inside, the latched word is `w`, and the
step is the instruction selected for it or the fault of line 5. -/
theorem stepFollowsTheAlgorithm : Obligations.StepFollowsTheAlgorithm := by
  intro s
  refine ⟨step_of_fetch_outside, fun hpc w hw => ?_⟩
  rw [step_of_fetch_inside hpc, fetchedWord_eq_of_toNat hw]
  constructor
  · intro i hi
    exact execLatched_of_ok hi
  · intro e he
    exact execLatched_of_error he

end Sys2Proof.Machine
end

section
/-! PROOFS. 40_flow.md R100 to R102 and R104 to R107: jump, call, return and the register-compare skips. -/

namespace Sys2Proof.Machine

/-! ### Jump, call and return -/

/-- An address operand keeps the number of its field: it is zero-extended (30_encoding.md R76). -/
theorem toNat_addrOperand (nnn : Addr12) : (addrOperand nnn).toNat = nnn.toNat :=
  BitVec.toNat_setWidth_of_le (by decide)

theorem exec_jp (nnn : Addr12) (s : State) : exec (.jp nnn) s = .next { s with pc := addrOperand nnn } := rfl

theorem exec_call (nnn : Addr12) (s : State) :
    exec (.call nnn) s = andThen (pushPc s) fun t => .next (t.setPc (addrOperand nnn)) := rfl

theorem exec_ret (s : State) : exec .ret s = popPc s := rfl

/-- CALL with a free entry: the push, then the jump. -/
theorem exec_call_of_lt (nnn : Addr12) {s : State} (h : s.sp.val < 16) :
    exec (.call nnn) s = .next { s with
      stack := s.stack.set s.sp.val s.pc
      sp := ⟨s.sp.val + 1, by omega⟩
      pc := addrOperand nnn } := by
  rw [exec_call, pushPc_of_lt h, andThen_next, State.setPc]

/-- CALL with sixteen entries in use: the push faults, so the jump does not run. -/
theorem exec_call_of_full (nnn : Addr12) {s : State} (h : ¬ s.sp.val < 16) :
    exec (.call nnn) s = .fault (.stackOverflow s) := by
  rw [exec_call, pushPc_of_full h, andThen_fault]

/-- Settles O11: the target is the zero-extended address field. -/
theorem jpSetsPc : Obligations.JpSetsPc := by
  intro nnn s
  exact ⟨addrOperand nnn, toNat_addrOperand nnn, exec_jp nnn s⟩

/-- Settles O13, by the two answers of the push: a free entry takes `pc`, a full stack stops the instruction. -/
theorem callPushesAndJumps : Obligations.CallPushesAndJumps := by
  intro nnn s
  constructor
  · intro h
    exact ⟨_, exec_call_of_lt nnn h, rfl, rfl, toNat_addrOperand nnn⟩
  · intro h
    exact exec_call_of_full nnn (by omega)

/-- Settles O14, by the two answers of the pop: the entry counted off is the new `pc`, an empty stack stops the
instruction. -/
theorem retPopsPc : Obligations.RetPopsPc := by
  intro s
  rw [exec_ret]
  constructor
  · intro h
    exact ⟨_, popPc_of_pos h, rfl, Nat.sub_add_cancel h, fun _ => rfl⟩
  · intro h
    exact popPc_of_empty (Nat.not_lt.mpr h.le)

/-! ### The register-compare skips -/

/-- A skip on a condition is an update of `pc` alone. -/
theorem State.skipIf_decide (s : State) (c : Prop) [Decidable c] :
    s.skipIf (decide c) = { s with pc := if c then s.pc + 2 else s.pc } := by
  by_cases h : c
  · rw [decide_eq_true h, if_pos h]
    rfl
  · rw [decide_eq_false h, if_neg h]
    rfl

theorem exec_seImm (x : Reg) (kk : Byte) (s : State) :
    exec (.seImm x kk) s = .next (s.skipIf (decide (s.getV x = kk))) := rfl

theorem exec_sneImm (x : Reg) (kk : Byte) (s : State) :
    exec (.sneImm x kk) s = .next (s.skipIf (decide (s.getV x ≠ kk))) := rfl

theorem exec_seReg (x y : Reg) (s : State) :
    exec (.seReg x y) s = .next (s.skipIf (decide (s.getV x = s.getV y))) := rfl

theorem exec_sneReg (x y : Reg) (s : State) :
    exec (.sneReg x y) s = .next (s.skipIf (decide (s.getV x ≠ s.getV y))) := rfl

/-- Settles O16: each of the four completes with a skip on its own condition, and a skip updates `pc` alone. -/
theorem compareSkipsMovePc : Obligations.CompareSkipsMovePc := by
  intro x y kk s
  rw [exec_seImm, exec_sneImm, exec_seReg, exec_sneReg]
  simp only [State.skipIf_decide, and_self]

end Sys2Proof.Machine
end

section
/-! PROOFS. 41_alu.md R120, R122 and R126: the register loads and the addition with carry. -/

namespace Sys2Proof.Machine

/-! ### Register writes in sequence -/

/-- A state is itself with its own registers. -/
theorem registersBecome_getV (s : State) : RegistersBecome s s s.getV := ⟨rfl, fun _ => rfl⟩

/-- One more register write: the register written takes the new byte, whatever an earlier write left there. -/
theorem RegistersBecome.setV {s t : State} {f : Reg → Byte} (h : RegistersBecome s t f) (x : Reg) (v : Byte) :
    RegistersBecome s (t.setV x v) fun k => if k = x then v else f k := by
  obtain ⟨hframe, hregs⟩ := h
  constructor
  · rw [hframe]
    rfl
  · intro k
    rw [State.getV_setV, hregs]

/-- A single register write. -/
theorem registersBecome_setV (s : State) (x : Reg) (v : Byte) :
    RegistersBecome s (s.setV x v) fun k => if k = x then v else s.getV k :=
  (registersBecome_getV s).setV x v

/-! ### Sum and carry -/

/-- Addition of bytes is addition modulo 256. -/
theorem byte_add_eq_ofNat (a b : Byte) : a + b = BitVec.ofNat 8 ((a.toNat + b.toNat) % 256) :=
  BitVec.eq_of_toNat_eq (by rw [BitVec.toNat_add, BitVec.toNat_ofNat, Nat.mod_mod])

/-- The flag of a condition is 1 or 0. -/
theorem flagByte_decide (c : Prop) [Decidable c] : flagByte (decide c) = if c then 1 else 0 := by
  simp only [flagByte, decide_eq_true_eq]

theorem carryFlag_eq (a b : Byte) : carryFlag a b = if 255 < a.toNat + b.toNat then 1 else 0 := flagByte_decide _

/-! ### The instructions -/

theorem exec_ldImm (x : Reg) (kk : Byte) (s : State) : exec (.ldImm x kk) s = .next (s.setV x kk) := rfl

theorem exec_ldReg (x y : Reg) (s : State) : exec (.ldReg x y) s = .next (s.setV x (s.getV y)) := rfl

theorem exec_addReg (x y : Reg) (s : State) :
    exec (.addReg x y) s =
      .next ((s.setV 15 (carryFlag (s.getV x) (s.getV y))).setV x (s.getV x + s.getV y)) := rfl

/-- Settles O17: each load is one register write. -/
theorem registerLoadsWriteTheDestination : Obligations.RegisterLoadsWriteTheDestination := by
  intro x y kk s
  exact ⟨⟨_, exec_ldImm x kk s, registersBecome_setV s x kk⟩,
    ⟨_, exec_ldReg x y s, registersBecome_setV s x (s.getV y)⟩⟩

/-- Settles O19, by the order of the two writes: the carry goes to register 15 first and the sum to `x` after it, so
with `x = 15` the sum overwrites the carry. -/
theorem addRegistersSetsCarry : Obligations.AddRegistersSetsCarry := by
  intro x y s
  rw [exec_addReg, carryFlag_eq, byte_add_eq_ofNat]
  exact ⟨_, rfl, (registersBecome_setV s 15 _).setV x _⟩

end Sys2Proof.Machine
end

section
/-! PROOFS. 42_index_memory.md R141 and R144 to R146: the index load, the decimal digits and the block transfers. -/

namespace Sys2Proof.Machine

/-! ### The instructions -/

theorem exec_ldI (nnn : Addr12) (s : State) : exec (.ldI nnn) s = .next { s with I := addrOperand nnn } := rfl

theorem exec_ldB (x : Reg) (s : State) :
    exec (.ldB x) s = storeBytes (indexAddr s 0) (bcdDigits (s.getV x)) s := rfl

theorem exec_storeRegs (x : Reg) (s : State) :
    exec (.storeRegs x) s = storeBytes (indexAddr s 0) ((regsUpTo x).map s.getV) s := rfl

theorem exec_loadRegs (x : Reg) (s : State) :
    exec (.loadRegs x) s = loadBytes (indexAddr s 0) (regsUpTo x) s := rfl

/-- Settles O23: the index is the zero-extended address field. -/
theorem ldISetsTheIndex : Obligations.LdISetsTheIndex := by
  intro nnn s
  exact ⟨addrOperand nnn, toNat_addrOperand nnn, exec_ldI nnn s⟩

/-! ### Stores -/

/-- The digits by their place: hundreds, tens, ones. -/
theorem bcdDigits_getElem (v : Byte) : ∀ (j : Nat) (hj : j < (bcdDigits v).length),
    (bcdDigits v)[j] = if j = 0 then BitVec.ofNat 8 (v.toNat / 100)
      else if j = 1 then BitVec.ofNat 8 (v.toNat / 10 % 10) else BitVec.ofNat 8 (v.toNat % 10)
  | 0, _ | 1, _ | 2, _ => rfl
  | _ + 3, hj => absurd hj (by simp [bcdDigits])

/-- Byte `j` of a block store is register `j`. -/
theorem storedRegs_getElem (x : Reg) (s : State) (j : Nat) (hj : j < ((regsUpTo x).map s.getV).length) :
    ((regsUpTo x).map s.getV)[j] = if h : j < 16 then s.getV ⟨j, h⟩ else 0 := by
  have hx : j < x.val + 1 := by simpa using hj
  rw [List.getElem_map, regsUpTo_getElem, dif_pos (by omega)]

/-- Settles O26: a store of the three digits at `I` upward. -/
theorem bcdStoresThreeDigits : Obligations.BcdStoresThreeDigits := by
  intro x s hm v digit
  obtain ⟨hnext, hfault⟩ := storeBytes_spec hm (m := 2) rfl (bcdDigits_getElem (s.getV x))
  rw [exec_ldB]
  exact ⟨hnext, fun k hk => hfault k (Nat.le_of_lt_succ hk)⟩

/-- Settles O27: a store of the registers 0 to `x` at `I` upward. -/
theorem blockStoreWritesMemory : Obligations.BlockStoreWritesMemory := by
  intro x s hm reg
  rw [exec_storeRegs]
  exact storeBytes_spec hm (by simp) (storedRegs_getElem x s)

/-! ### The block load -/

/-- The first `n` registers of a block transfer are those below `n`. -/
theorem mem_take_regsUpTo {x r : Reg} {n : Nat} (hn : n ≤ x.val + 1) : r ∈ (regsUpTo x).take n ↔ r.val < n := by
  rw [List.mem_take_iff_getElem]
  simp only [regsUpTo_getElem, regsUpTo_length, Nat.min_eq_left hn]
  constructor
  · rintro ⟨j, hj, rfl⟩
    exact hj
  · intro hr
    exact ⟨r.val, hr, rfl⟩

/-- Loading the first `n` registers from `I` upward, all from inside memory, changes those and no other. -/
theorem loadBytes_take_regsUpTo {x : Reg} {s : State} {n : Nat} (hn : n ≤ x.val + 1)
    (hin : ∀ j < n, indexAddr s j ≤ 4095) :
    ∃ t, loadBytes (indexAddr s 0) ((regsUpTo x).take n) s = .next t ∧
      RegistersBecome s t fun r => if r.val < n then s.byteAt (indexAddr s r.val) else s.getV r := by
  cases n with
  | zero => exact ⟨s, rfl, registersBecome_getV s⟩
  | succ n =>
    have hlen : ((regsUpTo x).take (n + 1)).length = n + 1 := by simpa using hn
    have hfit : indexAddr s (n + 1) ≤ 4096 := Nat.succ_le_succ (hin n n.lt_succ_self)
    obtain ⟨t, ht, hload⟩ := loadBytes_fits (s := s) (a := indexAddr s 0)
      ((regsUpTo_nodup x).sublist (List.take_sublist (n + 1) _)) (by rwa [hlen])
    obtain ⟨hframe, hkeep⟩ := loadBytes_leaves (t := t) (by rw [ht, leaves_next])
    refine ⟨t, ht, hframe, fun r => ?_⟩
    by_cases hr : r.val < n + 1
    · have hbyte := hload r.val (by rwa [hlen])
      rw [List.getElem_take, regsUpTo_getElem] at hbyte
      exact hbyte.trans (if_pos hr).symm
    · exact (hkeep r fun h => hr ((mem_take_regsUpTo hn).mp h)).trans (if_neg hr).symm

/-- A block load whose access `k` is the first above the end of memory faults there, in the state that loading the
registers before it gives. -/
theorem loadBytes_faults_at_first_outside {ks : List Reg} {a k : Nat} {s : State} (hk : k < ks.length)
    (hout : 4095 < a + k) (hin : ∀ j < k, a + j ≤ 4095) :
    ∃ t, loadBytes a ks s = .fault (.memoryOutOfBounds (a + k) t) ∧ loadBytes a (ks.take k) s = .next t := by
  cases k with
  | zero =>
    cases ks with
    | nil => exact absurd hk (Nat.not_lt_zero 0)
    | cons r ks => exact ⟨s, loadBytes_outside hout, rfl⟩
  | succ k =>
    have hlast : a + k ≤ 4095 := hin k k.lt_succ_self
    obtain ⟨t, hfault, hnext⟩ := loadBytes_crosses (ks := ks) (a := a) (s := s) (by omega) (by omega)
    rw [show 4096 - a = k + 1 by omega] at hnext
    rw [show a + (k + 1) = 4096 by omega]
    exact ⟨t, hfault, hnext⟩

/-- Settles O28: inside memory the whole list is loaded; past it the load stops at the first address outside, and the
registers before that one are loaded. -/
theorem blockLoadWritesRegisters : Obligations.BlockLoadWritesRegisters := by
  intro x s
  rw [exec_loadRegs]
  constructor
  · intro hx
    obtain ⟨t, hnext, hregs⟩ := loadBytes_take_regsUpTo (x := x) (s := s) le_rfl fun j hj =>
      (Nat.add_le_add_left (Nat.le_of_lt_succ hj) _).trans hx
    rw [List.take_of_length_le (regsUpTo_length x).le] at hnext
    simp only [Nat.lt_succ_iff] at hregs
    exact ⟨t, hnext, hregs⟩
  · intro k hk hout hin
    have hlt : k < (regsUpTo x).length := (Nat.lt_succ_of_le hk).trans_eq (regsUpTo_length x).symm
    obtain ⟨t, hfault, hnext⟩ := loadBytes_faults_at_first_outside hlt hout hin
    obtain ⟨u, hnext', hregs⟩ := loadBytes_take_regsUpTo (Nat.le_succ_of_le hk) hin
    obtain rfl : t = u := Host.Outcome.next.inj (hnext.symm.trans hnext')
    exact ⟨t, hfault, hregs⟩

end Sys2Proof.Machine
end

section
/-! PROOFS. 43_display.md R160: clearing the display. -/

namespace Sys2Proof.Machine

/-- On a display of 32 dark rows every cell is 0. -/
theorem State.cell_of_display_dark {s : State} (h : s.display = Vector.replicate 32 (Vector.replicate 64 false))
    (row : Fin 32) (col : Fin 64) : s.cell row col = false := by
  simp only [State.cell, h, Vector.getElem_replicate]

theorem exec_cls (s : State) :
    exec .cls s = .next { s with display := Vector.replicate 32 (Vector.replicate 64 false) } := rfl

/-- Settles O31: CLS replaces the display by a dark one, whatever it held. -/
theorem clsClearsEveryCell : Obligations.ClsClearsEveryCell := by
  intro s
  exact ⟨_, exec_cls s, rfl, State.cell_of_display_dark rfl⟩

end Sys2Proof.Machine
end

section
/-! PROOFS. 44_keypad_timers.md R173 to R175: the timer loads. -/

namespace Sys2Proof.Machine

theorem exec_ldVxDT (x : Reg) (s : State) : exec (.ldVxDT x) s = .next (s.setV x s.DT) := rfl

theorem exec_ldDTVx (x : Reg) (s : State) : exec (.ldDTVx x) s = .next { s with DT := s.getV x } := rfl

theorem exec_ldSTVx (x : Reg) (s : State) : exec (.ldSTVx x) s = .next { s with ST := s.getV x } := rfl

/-- Settles O39: the load from the delay timer is one register write, and each load into a timer replaces that timer
alone. -/
theorem timerLoadsCopy : Obligations.TimerLoadsCopy := by
  intro x s
  exact ⟨⟨_, exec_ldVxDT x s, registersBecome_setV s x s.DT⟩, exec_ldDTVx x s, exec_ldSTVx x s⟩

end Sys2Proof.Machine
end

section
/-! PROOFS. 60_exceptions.md R207 and R210: the host's timer ticks and key states. -/

namespace Sys2Proof.Machine

/-! ### Ticks -/

/-- A count down is a subtraction on naturals, which stops at 0. -/
theorem toNat_countDown (t : Byte) : (countDown t).toNat = t.toNat - 1 := by
  by_cases h : t = 0
  · subst h
    rfl
  · rw [countDown, if_neg h]
    have hpos : t.toNat ≠ 0 := fun h0 => h (BitVec.eq_of_toNat_eq h0)
    exact BitVec.toNat_sub_of_le (Nat.one_le_iff_ne_zero.mpr hpos)

/-- Counts down in a row add up. -/
theorem toNat_countDown_iterate (n : Nat) (t : Byte) : (countDown^[n] t).toNat = t.toNat - n := by
  induction n with
  | zero => rfl
  | succ n ih => rw [Function.iterate_succ_apply', toNat_countDown, ih, Nat.sub_sub]

/-- Ticks in a row count each timer down on its own. -/
theorem tick_iterate (n : Nat) (s : State) :
    tick^[n] s = { s with DT := countDown^[n] s.DT, ST := countDown^[n] s.ST } := by
  induction n with
  | zero => rfl
  | succ n ih => simp only [Function.iterate_succ_apply', ih, tick]

/-- Settles O41: ticks in a row are counts down in a row of the two timers, and those add up. -/
theorem ticksReachZeroAndStay : Obligations.TicksReachZeroAndStay := by
  intro n s
  rw [tick_iterate]
  exact ⟨rfl, toNat_countDown_iterate n s.DT, toNat_countDown_iterate n s.ST⟩

/-- Settles O40: a tick is one count down of each timer. -/
theorem tickCountsBothTimersDown : Obligations.TickCountsBothTimersDown := by
  intro s
  exact ⟨rfl, toNat_countDown s.DT, toNat_countDown s.ST⟩

/-! ### Key states -/

/-- A key after one entry of the keypad is written. -/
theorem keypad_setKey (i j : Key) (down : Bool) (s : State) :
    (setKey i down s).keypad[j.val] = if j = i then down else s.keypad[j.val] := by
  simp only [setKey, Vector.getElem_set, Fin.ext_iff, eq_comm (a := i.val)]

/-- Settles O43: KEYS replaces the keypad alone, and a single entry is written by replacing the keypad too. -/
theorem keysSetsTheKeypad : Obligations.KeysSetsTheKeypad := by
  intro k s i down
  exact ⟨rfl, fun j => keypad_setKey i j down s, rfl⟩

end Sys2Proof.Machine
end

section
/-! PROOFS. 30_encoding.md R74 to R80: the dispatch, the encoder and the opcode map agree. -/

namespace Sys2Proof

/-! ### Decoding an encoded instruction -/

/-- The dispatch selects from an instruction's own word that instruction; the row count is read from four bits. -/
theorem selectInstr_encode {i : Instr} (hi : i.wellFormed = true) : selectInstr (encode i) = some i := by
  cases i with
  | cls | ret => rfl
  | drw x y n =>
    have hn : n < 16 := of_decide_eq_true hi
    simp [encode, selectInstr, Nat.mod_eq_of_lt hn]
  | _ => simp [encode, selectInstr, selectFamily8, selectFamilyE, selectFamilyF]

/-- Settles O5: decoding the bytes of a word is selecting from the word, and the dispatch inverts the encoder. -/
theorem decodeOfEncodeIsTheInstruction : Obligations.DecodeOfEncodeIsTheInstruction := by
  intro i rest hi
  rw [decode_wordBytes, decodeWord_eq_ok.mpr (selectInstr_encode hi), Except.map]

/-! ### Encoding a decoded instruction -/

/-- A word from its leading nibble and the address field. -/
theorem formatNNN_eq {w : Word} {op : BitVec 4} (hop : fieldOp w = op) : formatNNN op (fieldNNN w) = w :=
  hop ▸ formatNNN_fields w

/-- A word from its leading nibble, `x` and the trailing byte. -/
theorem formatXKK_eq {w : Word} {op : BitVec 4} {kk : Byte} (hop : fieldOp w = op) (hkk : fieldKK w = kk) :
    formatXKK op (regOf (fieldX w)) kk = w :=
  hop ▸ hkk ▸ formatXKK_fields w

/-- A word from its four nibbles. -/
theorem formatXY_eq {w : Word} {op n : BitVec 4} (hop : fieldOp w = op) (hn : fieldN w = n) :
    formatXY op (regOf (fieldX w)) (regOf (fieldY w)) n = w :=
  hop ▸ hn ▸ formatXY_fields w

/-- The only leading nibble the dispatch does not list by name. -/
theorem nibble_eq_F : ∀ op : BitVec 4,
    op ∉ [0x0#4, 0x1#4, 0x2#4, 0x3#4, 0x4#4, 0x5#4, 0x6#4, 0x7#4, 0x8#4, 0x9#4, 0xA#4, 0xB#4, 0xC#4, 0xD#4, 0xE#4] →
    op = 0xF#4 := by
  decide

/-- Family 0 selects a word that encodes to itself. -/
theorem encode_of_selectFamily0 {w : Word} {i : Instr} (h : selectFamily0 w = some i) :
    i.wellFormed = true ∧ encode i = w := by
  unfold selectFamily0 at h
  split at h <;> cases h <;> exact ⟨rfl, rfl⟩

/-- Family 8 selects by the trailing nibble. -/
theorem encode_of_selectFamily8 {w : Word} {i : Instr} (hop : fieldOp w = 0x8#4)
    (h : selectFamily8 (regOf (fieldX w)) (regOf (fieldY w)) (fieldN w) = some i) :
    i.wellFormed = true ∧ encode i = w := by
  unfold selectFamily8 at h
  split at h <;> cases h <;> exact ⟨rfl, formatXY_eq hop ‹_›⟩

/-- Family E selects by the trailing byte. -/
theorem encode_of_selectFamilyE {w : Word} {i : Instr} (hop : fieldOp w = 0xE#4)
    (h : selectFamilyE (regOf (fieldX w)) (fieldKK w) = some i) : i.wellFormed = true ∧ encode i = w := by
  unfold selectFamilyE at h
  split at h <;> cases h <;> exact ⟨rfl, formatXKK_eq hop ‹_›⟩

/-- Family F selects by the trailing byte. -/
theorem encode_of_selectFamilyF {w : Word} {i : Instr} (hop : fieldOp w = 0xF#4)
    (h : selectFamilyF (regOf (fieldX w)) (fieldKK w) = some i) : i.wellFormed = true ∧ encode i = w := by
  unfold selectFamilyF at h
  split at h <;> cases h <;> exact ⟨rfl, formatXKK_eq hop ‹_›⟩

/-- The row count read from a word fits, and is the word's own trailing nibble. -/
theorem encode_drw_of_fields {w : Word} (hop : fieldOp w = 0xD#4) :
    (Instr.drw (regOf (fieldX w)) (regOf (fieldY w)) (fieldN w).toNat).wellFormed = true ∧
    encode (.drw (regOf (fieldX w)) (regOf (fieldY w)) (fieldN w).toNat) = w :=
  have hn : BitVec.ofNat 4 (fieldN w).toNat = fieldN w := BitVec.ofNat_toNat 4 _
  ⟨decide_eq_true (fieldN w).isLt, (congrArg (formatXY 0xD#4 _ _) hn).trans (formatXY_eq hop rfl)⟩

/-- A word that selects an instruction is that instruction's word, leading nibble by leading nibble: case `h_1` is the
nibble 0, case `h_16` the nibble F. -/
theorem encode_of_selectInstr {w : Word} {i : Instr} (h : selectInstr w = some i) :
    i.wellFormed = true ∧ encode i = w := by
  unfold selectInstr at h
  split at h
  case h_1 => exact encode_of_selectFamily0 h
  case h_9 hop => exact encode_of_selectFamily8 hop h
  case h_14 hop => cases h; exact encode_drw_of_fields hop
  case h_15 hop => exact encode_of_selectFamilyE hop h
  case h_16 => exact encode_of_selectFamilyF (nibble_eq_F _ (by simp_all)) h
  case h_2 hop | h_3 hop | h_11 hop | h_12 hop => cases h; exact ⟨rfl, formatNNN_eq hop⟩
  case h_6 hop | h_10 hop =>
    split at h
    next hn => cases h; exact ⟨rfl, formatXY_eq hop hn⟩
    next => cases h
  case h_4 hop | h_5 hop | h_7 hop | h_8 hop | h_13 hop => cases h; exact ⟨rfl, formatXKK_eq hop rfl⟩

/-- Settles O6: the decoder answers what the dispatch selects, and a selected word is the instruction's own. -/
theorem encodeOfDecodeIsTheWord : Obligations.EncodeOfDecodeIsTheWord := by
  intro w i h
  exact encode_of_selectInstr (decodeWord_eq_ok.mp h)

/-! ### The opcode map -/

/-- Every instruction's word matches the instruction's own row: the lemmas of the constructors together. -/
theorem rowOf_accepts_encode (i : Instr) : (rowOf i).accepts (encode i) = true := by
  open Laws.RowMatch in
  cases i
  exacts [cls, ret, jp _, call _, seImm _ _, sneImm _ _, seReg _ _, ldImm _ _, addImm _ _, ldReg _ _, orReg _ _,
    andReg _ _, xorReg _ _, addReg _ _, subReg _ _, shr _ _, subnReg _ _, shl _ _, sneReg _ _, ldI _, jpV0 _, rnd _ _,
    drw _ _ _, skp _, sknp _, ldVxDT _, ldVxK _, ldDTVx _, ldSTVx _, addI _, ldF _, ldB _, storeRegs _, loadRegs _]

/-- The row of every instruction stands in the opcode map. -/
theorem rowOf_mem_opcodeTable (i : Instr) : rowOf i ∈ opcodeTable := by
  cases i <;> simp [opcodeTable, rowInstrs, rowOf]

/-- Where a row's mask is full, a word it accepts has the bits of its pattern. -/
theorem field_eq_of_accepts {r : OpcodeRow} {w : Word} (h : r.accepts w = true) {start len : Nat}
    (hmask : r.mask.extractLsb' start len = BitVec.allOnes len) :
    w.extractLsb' start len = r.pattern.extractLsb' start len := by
  rw [← of_decide_eq_true h, BitVec.extractLsb'_and, hmask, BitVec.and_allOnes]

/-- Every row names its leading nibble. -/
theorem fieldOp_mask_rowOf (j : Instr) : fieldOp (rowOf j).mask = BitVec.allOnes 4 := by
  cases j <;> simp only [rowOf] <;> rfl

/-- A word that the row of some instruction accepts selects an instruction: the row names the leading nibble and, in
the families with a second level, the trailing nibble or byte. -/
theorem selectInstr_of_row_accepts {w : Word} (j : Instr) (h : (rowOf j).accepts w = true) :
    ∃ i, selectInstr w = some i := by
  have hop : fieldOp w = fieldOp (rowOf j).pattern := field_eq_of_accepts h (fieldOp_mask_rowOf j)
  have hn : fieldN (rowOf j).mask = BitVec.allOnes 4 → fieldN w = fieldN (rowOf j).pattern := field_eq_of_accepts h
  have hkk : fieldKK (rowOf j).mask = BitVec.allOnes 8 → fieldKK w = fieldKK (rowOf j).pattern :=
    field_eq_of_accepts h
  cases j <;> simp only [rowOf] at hop hn hkk
  case cls | ret =>
    obtain rfl : w = (rowOf _).pattern := (BitVec.and_allOnes (x := w)).symm.trans (of_decide_eq_true h)
    exact ⟨_, rfl⟩
  case seReg | sneReg | ldReg | orReg | andReg | xorReg | addReg | subReg | shr | subnReg | shl =>
    rw [selectInstr, hop, hn rfl]
    exact ⟨_, rfl⟩
  case skp | sknp | ldVxDT | ldVxK | ldDTVx | ldSTVx | addI | ldF | ldB | storeRegs | loadRegs =>
    rw [selectInstr, hop, hkk rfl]
    exact ⟨_, rfl⟩
  all_goals
    rw [selectInstr, hop]
    exact ⟨_, rfl⟩

/-- Settles O7: a decoded word is its instruction's encoding, which that instruction's row accepts; an accepted word has
the fields by which the dispatch selects. -/
theorem dispatchAgreesWithTheOpcodeMap : Obligations.DispatchAgreesWithTheOpcodeMap := by
  have hrow : ∀ (w : Word) (i : Instr), decodeWord w = .ok i → (rowOf i).accepts w = true := by
    intro w i h
    obtain ⟨-, rfl⟩ := encode_of_selectInstr (decodeWord_eq_ok.mp h)
    exact rowOf_accepts_encode i
  refine ⟨fun w => ⟨?_, ?_⟩, hrow⟩
  · rintro ⟨i, h⟩
    exact ⟨rowOf i, rowOf_mem_opcodeTable i, hrow w i h⟩
  · rintro ⟨r, hr, h⟩
    obtain ⟨j, -, rfl⟩ := List.mem_map.mp hr
    obtain ⟨i, hi⟩ := selectInstr_of_row_accepts j h
    exact ⟨i, decodeWord_eq_ok.mpr hi⟩

/-- Two rows whose patterns differ where both masks are set accept no common word. -/
theorem not_accepts_both {r q : OpcodeRow} (h : r.pattern &&& q.mask ≠ q.pattern &&& r.mask) (w : Word) :
    ¬ (r.accepts w = true ∧ q.accepts w = true) := by
  rintro ⟨hr, hq⟩
  refine h ?_
  rw [← of_decide_eq_true hr, ← of_decide_eq_true hq, BitVec.and_assoc, BitVec.and_assoc, BitVec.and_comm r.mask]

/-- Settles O8: any two rows of the map differ where both masks are set. -/
theorem opcodeRowsAreDisjoint : Obligations.OpcodeRowsAreDisjoint := by
  have hdiffer : opcodeTable.Pairwise fun r q => r.pattern &&& q.mask ≠ q.pattern &&& r.mask := by decide
  exact ⟨rfl, hdiffer.imp fun h w => not_accepts_both h w⟩

/-! ### The words that are no instruction -/

/-- A word of family 0 is known by its address field. -/
theorem family0_eq_iff {w : Word} (hop : fieldOp w = 0x0#4) (nnn : Addr12) :
    w = formatNNN 0x0#4 nnn ↔ fieldNNN w = nnn := by
  constructor
  · rintro rfl
    exact fieldNNN_formatNNN _ _
  · rintro rfl
    exact (formatNNN_eq hop).symm

theorem selectFamily0_eq_none {w : Word} (hop : fieldOp w = 0x0#4) :
    selectFamily0 w = none ↔ fieldNNN w ≠ 0x0E0#12 ∧ fieldNNN w ≠ 0x0EE#12 := by
  rw [ne_eq, ne_eq, ← family0_eq_iff hop, ← family0_eq_iff hop]
  change _ ↔ w ≠ 0x00E0#16 ∧ w ≠ 0x00EE#16
  unfold selectFamily0
  split <;> simp_all

/-- Family 8 names nine of the sixteen trailing nibbles. -/
theorem selectFamily8_eq_none (x y : Reg) (n : BitVec 4) :
    selectFamily8 x y n = none ↔ n ∈ [0x8#4, 0x9#4, 0xA#4, 0xB#4, 0xC#4, 0xD#4, 0xF#4] := by
  have hrest : ∀ n : BitVec 4, n ∈ [0x8#4, 0x9#4, 0xA#4, 0xB#4, 0xC#4, 0xD#4, 0xF#4] ↔
      n ∉ [0x0#4, 0x1#4, 0x2#4, 0x3#4, 0x4#4, 0x5#4, 0x6#4, 0x7#4, 0xE#4] := by decide
  rw [hrest]
  unfold selectFamily8
  split <;> simp_all

theorem selectFamilyE_eq_none (x : Reg) (kk : Byte) : selectFamilyE x kk = none ↔ kk ∉ [0x9E#8, 0xA1#8] := by
  unfold selectFamilyE
  split <;> simp_all

theorem selectFamilyF_eq_none (x : Reg) (kk : Byte) : selectFamilyF x kk = none ↔
    kk ∉ [0x07#8, 0x0A#8, 0x15#8, 0x18#8, 0x1E#8, 0x29#8, 0x33#8, 0x55#8, 0x65#8] := by
  unfold selectFamilyF
  split <;> simp_all

/-- Settles O9: by the leading nibble, each family's own selection; case `h_1` is the nibble 0, case `h_16` the nibble
F. -/
theorem unknownOpcodesAreExactlyTheListed : Obligations.UnknownOpcodesAreExactlyTheListed := by
  intro w
  rw [decodeWord_eq_error, and_iff_left rfl]
  unfold selectInstr
  split
  case h_1 hop => simp [hop, selectFamily0_eq_none hop]
  case h_9 hop => simp [hop, selectFamily8_eq_none]
  case h_15 hop => simp [hop, selectFamilyE_eq_none]
  case h_16 =>
    have hop : fieldOp w = 0xF#4 := nibble_eq_F _ (by simp_all)
    simp [hop, selectFamilyF_eq_none]
  all_goals simp [*]

/-- Settles O10, by evaluating the dispatch on each of the eight words. -/
theorem exampleWordsDecode : Obligations.ExampleWordsDecode := by
  exact ⟨rfl, rfl, rfl, rfl, rfl, rfl, rfl, rfl⟩

end Sys2Proof
end

section
/-! PROOFS. 10_state.md R20: what an instruction leaves, whether it completes or faults. -/

namespace Sys2Proof.Machine

/-! ### The frame of an instruction -/

/-- The state `s` with the pieces that `i` may write taken from `t` (10_state.md R20, the column "written by"). -/
def withWrites : Instr → State → State → State
  | .cls, s, t => { s with display := t.display }
  | .ret, s, t => { s with pc := t.pc, sp := t.sp }
  | .call _, s, t => { s with pc := t.pc, stack := t.stack, sp := t.sp }
  | .jp _, s, t | .jpV0 _, s, t | .seImm _ _, s, t | .sneImm _ _, s, t | .seReg _ _, s, t | .sneReg _ _, s, t
  | .skp _, s, t | .sknp _, s, t => { s with pc := t.pc }
  | .ldImm _ _, s, t | .addImm _ _, s, t | .ldReg _ _, s, t | .orReg _ _, s, t | .andReg _ _, s, t | .xorReg _ _, s, t
  | .addReg _ _, s, t | .subReg _ _, s, t | .shr _ _, s, t | .subnReg _ _, s, t | .shl _ _, s, t | .ldVxDT _, s, t
  | .loadRegs _, s, t => { s with V := t.V }
  | .rnd _ _, s, t => { s with V := t.V, draws := t.draws }
  | .ldI _, s, t | .addI _, s, t | .ldF _, s, t => { s with I := t.I }
  | .drw _ _ _, s, t => { s with display := t.display, V := t.V }
  | .ldVxK _, s, t => { s with pc := t.pc, V := t.V }
  | .ldDTVx _, s, t => { s with DT := t.DT }
  | .ldSTVx _, s, t => { s with ST := t.ST }
  | .ldB _, s, t | .storeRegs _, s, t => { s with mem := t.mem }

/-- What a key instruction leaves: its own state when `V[x]` names no key, else what it does with the key. -/
theorem leaves_withKey {s t : State} {x : Reg} {f : Key → Result} (h : leaves (withKey s x f) = some t) :
    t = s ∨ ∃ k, leaves (f k) = some t := by
  by_cases hx : (s.getV x).toNat < 16
  · rw [withKey_of_le hx] at h
    exact .inr ⟨_, h⟩
  · rw [withKey_of_gt hx] at h
    exact .inl (Option.some.inj h).symm

/-- A skip moves `pc` by 2 or nothing. -/
theorem State.skipIf_cases (s : State) (c : Bool) : s.skipIf c = s ∨ s.skipIf c = s.setPc (s.pc + 2) := by
  cases c
  · exact .inl rfl
  · exact .inr rfl

/-- A key skip leaves its own state or moves `pc` by 2. -/
theorem leaves_keySkip {s t : State} {x : Reg} {c : Key → Bool}
    (h : leaves (withKey s x fun k => .next (s.skipIf (c k))) = some t) : t = s ∨ t = s.setPc (s.pc + 2) := by
  rcases leaves_withKey h with rfl | ⟨k, hk⟩
  · exact .inl rfl
  · obtain rfl := Option.some.inj hk
    exact s.skipIf_cases (c k)

theorem exec_skp (x : Reg) (s : State) : exec (.skp x) s = withKey s x fun k => .next (s.skipIf (s.keyDown k)) := rfl

theorem exec_sknp (x : Reg) (s : State) : exec (.sknp x) s = withKey s x fun k => .next (s.skipIf (!s.keyDown k)) := rfl

/-- LD Vx,K with a key found: the key is loaded (44_keypad_timers.md R172). -/
theorem exec_ldVxK_of_key {x : Reg} {s : State} {k : Key} (h : s.firstKey = some k) :
    exec (.ldVxK x) s = .next (s.setV x (BitVec.ofNat 8 k.val)) := by
  change execLdVxK x s = _
  rw [execLdVxK, h]

/-- LD Vx,K with no key found: the advance of `pc` is taken back (44_keypad_timers.md R172). -/
theorem exec_ldVxK_of_no_key {x : Reg} {s : State} (h : s.firstKey = none) :
    exec (.ldVxK x) s = .next (s.setPc (s.pc - 2)) := by
  change execLdVxK x s = _
  rw [execLdVxK, h]

/-- LD Vx,K leaves `V[x]` loaded or `pc` taken back. -/
theorem leaves_ldVxK {s t : State} {x : Reg} (h : leaves (exec (.ldVxK x) s) = some t) :
    (∃ v, t = s.setV x v) ∨ t = s.setPc (s.pc - 2) := by
  cases hk : s.firstKey with
  | some k =>
    rw [exec_ldVxK_of_key hk] at h
    exact .inl ⟨_, (Option.some.inj h).symm⟩
  | none =>
    rw [exec_ldVxK_of_no_key hk] at h
    exact .inr (Option.some.inj h).symm

/-- CALL leaves its own state when the stack is full, else `pc` pushed and the jump taken. -/
theorem leaves_call {s t : State} {nnn : Addr12} (h : leaves (exec (.call nnn) s) = some t) :
    t = s ∨ ∃ hsp : s.sp.val < 16, t = { s with
      stack := s.stack.set s.sp.val s.pc
      sp := ⟨s.sp.val + 1, by omega⟩
      pc := addrOperand nnn } := by
  by_cases hsp : s.sp.val < 16
  · rw [exec_call_of_lt nnn hsp] at h
    exact .inr ⟨hsp, (Option.some.inj h).symm⟩
  · rw [exec_call_of_full nnn hsp] at h
    exact .inl (Option.some.inj h).symm

/-- RET leaves its own state when the stack is empty, else an entry popped into `pc`. -/
theorem leaves_ret {s t : State} (h : leaves (exec .ret s) = some t) :
    t = s ∨ ∃ k : Fin 16, t = { s with pc := s.stack[k.val], sp := t.sp } := by
  rw [exec_ret] at h
  by_cases hsp : 0 < s.sp.val
  · rw [popPc_of_pos hsp] at h
    obtain rfl := Option.some.inj h
    exact .inr ⟨⟨s.sp.val - 1, by omega⟩, rfl⟩
  · rw [popPc_of_empty hsp] at h
    exact .inl (Option.some.inj h).symm

/-- `i` is one of the six skips (40_flow.md R104 to R107, 44_keypad_timers.md R170, R171). -/
def IsSkip (i : Instr) : Prop :=
  (∃ x kk, i = .seImm x kk ∨ i = .sneImm x kk) ∨ (∃ x y, i = .seReg x y ∨ i = .sneReg x y) ∨
    ∃ x, i = .skp x ∨ i = .sknp x

/-- The six skips leave their own state or move `pc` by 2. -/
theorem leaves_skip {i : Instr} {s t : State} (h : leaves (exec i s) = some t) (hi : IsSkip i) :
    t = s ∨ t = s.setPc (s.pc + 2) := by
  rcases hi with ⟨x, kk, rfl | rfl⟩ | ⟨x, y, rfl | rfl⟩ | ⟨x, rfl | rfl⟩
  case inr.inr.inl => exact leaves_keySkip h
  case inr.inr.inr => exact leaves_keySkip (c := fun k => !s.keyDown k) h
  all_goals
    obtain rfl := Option.some.inj h
    exact s.skipIf_cases _

/-- An instruction writes no piece of the state but its own. -/
theorem exec_frame {i : Instr} {s t : State} (h : leaves (exec i s) = some t) : t = withWrites i s t := by
  cases i
  case call nnn => rcases leaves_call h with rfl | ⟨-, rfl⟩ <;> rfl
  case ret =>
    rcases leaves_ret h with rfl | ⟨k, hk⟩
    · rfl
    · rw [hk]; rfl
  case seImm | sneImm | seReg | sneReg | skp | sknp => rcases leaves_skip h (by simp [IsSkip]) with rfl | rfl <;> rfl
  case ldVxK x => rcases leaves_ldVxK h with ⟨v, rfl⟩ | rfl <;> rfl
  case drw x y n =>
    obtain ⟨r, c, hdrawn⟩ := execDrw_leaves h
    exact hdrawn.rest
  case ldB | storeRegs => exact (storeBytes_leaves h).1
  case loadRegs => exact (loadBytes_leaves h).1
  all_goals
    obtain rfl := Option.some.inj h
    rfl

/-! ### The frame, piece by piece -/

section
variable {i : Instr} {s t : State}

theorem exec_writes_mem (h : leaves (exec i s) = some t) (hne : t.mem ≠ s.mem) :
    ∃ x, i = .ldB x ∨ i = .storeRegs x := by
  have hframe := congrArg State.mem (exec_frame h)
  cases i
  case ldB x => exact ⟨x, .inl rfl⟩
  case storeRegs x => exact ⟨x, .inr rfl⟩
  all_goals exact absurd hframe hne

theorem exec_writes_I (h : leaves (exec i s) = some t) (hne : t.I ≠ s.I) :
    (∃ nnn, i = .ldI nnn) ∨ ∃ x, i = .addI x ∨ i = .ldF x := by
  have hframe := congrArg State.I (exec_frame h)
  cases i
  case ldI | addI | ldF => simp
  all_goals exact absurd hframe hne

theorem exec_writes_pc (h : leaves (exec i s) = some t) (hne : t.pc ≠ s.pc) :
    i = .ret ∨ (∃ nnn, i = .jp nnn ∨ i = .jpV0 nnn ∨ i = .call nnn) ∨
      (∃ x kk, i = .seImm x kk ∨ i = .sneImm x kk) ∨ (∃ x y, i = .seReg x y ∨ i = .sneReg x y) ∨
      ∃ x, i = .skp x ∨ i = .sknp x ∨ i = .ldVxK x := by
  have hframe := congrArg State.pc (exec_frame h)
  cases i
  case ret | jp | jpV0 | call | seImm | sneImm | seReg | sneReg | skp | sknp | ldVxK => simp
  all_goals exact absurd hframe hne

theorem exec_writes_stack (h : leaves (exec i s) = some t) (hne : t.stack ≠ s.stack) : ∃ nnn, i = .call nnn := by
  have hframe := congrArg State.stack (exec_frame h)
  cases i
  case call nnn => exact ⟨nnn, rfl⟩
  all_goals exact absurd hframe hne

theorem exec_writes_sp (h : leaves (exec i s) = some t) (hne : t.sp ≠ s.sp) : i = .ret ∨ ∃ nnn, i = .call nnn := by
  have hframe := congrArg State.sp (exec_frame h)
  cases i
  case ret | call => simp
  all_goals exact absurd hframe hne

theorem exec_writes_DT (h : leaves (exec i s) = some t) (hne : t.DT ≠ s.DT) : ∃ x, i = .ldDTVx x := by
  have hframe := congrArg State.DT (exec_frame h)
  cases i
  case ldDTVx x => exact ⟨x, rfl⟩
  all_goals exact absurd hframe hne

theorem exec_writes_ST (h : leaves (exec i s) = some t) (hne : t.ST ≠ s.ST) : ∃ x, i = .ldSTVx x := by
  have hframe := congrArg State.ST (exec_frame h)
  cases i
  case ldSTVx x => exact ⟨x, rfl⟩
  all_goals exact absurd hframe hne

theorem exec_writes_display (h : leaves (exec i s) = some t) (hne : t.display ≠ s.display) :
    i = .cls ∨ ∃ x y n, i = .drw x y n := by
  have hframe := congrArg State.display (exec_frame h)
  cases i
  case cls | drw => simp
  all_goals exact absurd hframe hne

theorem exec_writes_draws (h : leaves (exec i s) = some t) (hne : t.draws ≠ s.draws) : ∃ x kk, i = .rnd x kk := by
  have hframe := congrArg State.draws (exec_frame h)
  cases i
  case rnd x kk => exact ⟨x, kk, rfl⟩
  all_goals exact absurd hframe hne

theorem exec_keeps_keypad (h : leaves (exec i s) = some t) : t.keypad = s.keypad := by
  have hframe := congrArg State.keypad (exec_frame h)
  cases i <;> exact hframe

theorem exec_keeps_opcode (h : leaves (exec i s) = some t) : t.opcode = s.opcode := by
  have hframe := congrArg State.opcode (exec_frame h)
  cases i <;> exact hframe

end

/-- Settles O56: the frame of each instruction, read piece by piece. -/
theorem onlyTheNamedInstructionsWrite : Obligations.OnlyTheNamedInstructionsWrite := by
  intro i s t h
  exact ⟨exec_writes_mem h, exec_writes_I h, exec_writes_pc h, exec_writes_stack h, exec_writes_sp h, exec_writes_DT h,
    exec_writes_ST h, exec_writes_display h, exec_writes_draws h, exec_keeps_keypad h, exec_keeps_opcode h⟩

/-! ### Registers and bytes outside the destination -/

/-- A register that is no destination keeps its value: an instruction that writes registers writes only its own, one
that writes none keeps them all. -/
theorem exec_keeps_getV {i : Instr} {s t : State} (h : leaves (exec i s) = some t) {k : Reg}
    (hk : mayWrite i k = false) : t.getV k = s.getV k := by
  have hframe := congrArg (State.getV · k) (exec_frame h)
  cases i
  case drw =>
    obtain ⟨r, c, hdrawn⟩ := execDrw_leaves h
    exact hdrawn.regs k (ne_of_beq_false hk)
  case loadRegs =>
    refine (loadBytes_leaves h).2 k fun hmem => ?_
    exact of_decide_eq_false hk (mem_regsUpTo.mp hmem)
  case ldVxK =>
    rcases leaves_ldVxK h with ⟨v, rfl⟩ | rfl
    · exact (State.getV_setV ..).trans (if_neg (ne_of_beq_false hk))
    · rfl
  case ldImm | addImm | ldReg | orReg | andReg | xorReg | rnd | ldVxDT =>
    obtain rfl := Option.some.inj h
    exact (State.getV_setV ..).trans (if_neg (ne_of_beq_false hk))
  case addReg | subReg | shr | subnReg | shl =>
    obtain rfl := Option.some.inj h
    obtain ⟨hx, hf⟩ := Bool.or_eq_false_iff.mp hk
    exact (State.getV_setV ..).trans ((if_neg (ne_of_beq_false hx)).trans
      ((State.getV_setV ..).trans (if_neg (ne_of_beq_false hf))))
  all_goals exact hframe

/-- An instruction that stores nothing changes no byte. -/
theorem exec_keeps_bytes {i : Instr} {s t : State} (h : leaves (exec i s) = some t)
    (hi : ∀ x, i ≠ .ldB x ∧ i ≠ .storeRegs x) (a : Nat) : t.byteAt a = s.byteAt a := by
  have hmem : t.mem = s.mem := by
    by_contra hne
    obtain ⟨x, rfl | rfl⟩ := exec_writes_mem h hne
    · exact (hi x).1 rfl
    · exact (hi x).2 rfl
  rw [State.byteAt, State.byteAt, hmem]

/-- Settles O57: the registers by the writes of each instruction, the bytes by what a store of bytes leaves. -/
theorem registersAndMemoryOutsideTheDestinationStay : Obligations.RegistersAndMemoryOutsideTheDestinationStay := by
  intro i s t h
  refine ⟨fun k hk => exec_keeps_getV h hk, ?_, ?_, exec_keeps_bytes h⟩
  · rintro x rfl a ha
    exact (storeBytes_leaves h).2.2 a ha
  · rintro x rfl a ha
    refine (storeBytes_leaves h).2.2 a ?_
    simpa [indexAddr] using ha

end Sys2Proof.Machine
end

section
/-! PROOFS. 30_encoding.md R72, 10_state.md R24, R25 and R30: the cases of a step, and what every step keeps. -/

namespace Sys2Proof.Machine

/-! ### The cases of a step -/

/-- The latched and advanced state of a fetch (30_encoding.md R72, lines 3 and 4). -/
def State.fetched (s : State) : State := { s with opcode := s.fetchedWord, pc := s.pc + 2 }

@[simp] theorem State.fetched_opcode (s : State) : s.fetched.opcode = s.fetchedWord := rfl
@[simp] theorem State.fetched_pc (s : State) : s.fetched.pc = s.pc + 2 := rfl

/-- A fetch inside memory does not wrap `pc`. -/
theorem toNat_fetched_pc {s : State} (h : s.pc.toNat + 1 ≤ 4095) : s.fetched.pc.toNat = s.pc.toNat + 2 := by
  rw [State.fetched_pc, BitVec.toNat_add_of_lt]
  · rfl
  · change s.pc.toNat + 2 < 65536
    omega

/-- A step whose fetched word selects an instruction is that instruction on the fetched state. -/
theorem step_eq_exec_fetched {s : State} {i : Instr} (hpc : s.pc.toNat + 1 ≤ 4095)
    (hd : decodeWord s.fetchedWord = .ok i) : step s = exec i s.fetched :=
  (step_of_fetch_inside hpc).trans (execLatched_of_ok (s := s.fetched) hd)

/-- A step is a fetch fault, an unknown opcode on the fetched state, or an instruction on the fetched state. -/
theorem step_cases (s : State) :
    (4095 < s.pc.toNat + 1 ∧ step s = .fault (.fetchOutOfBounds s.pc s)) ∨
    (s.pc.toNat + 1 ≤ 4095 ∧ step s = .fault (.unknownOpcode s.fetchedWord s.fetched)) ∨
    (s.pc.toNat + 1 ≤ 4095 ∧ ∃ i, decodeWord s.fetchedWord = .ok i ∧ step s = exec i s.fetched) := by
  by_cases hpc : s.pc.toNat + 1 ≤ 4095
  · cases hd : decodeWord s.fetchedWord with
    | error e =>
      have hfault := execLatched_of_error (s := s.fetched) hd
      exact .inr (.inl ⟨hpc, (step_of_fetch_inside hpc).trans hfault⟩)
    | ok i => exact .inr (.inr ⟨hpc, i, rfl, step_eq_exec_fetched hpc hd⟩)
  · have hout : 4095 < s.pc.toNat + 1 := Nat.lt_of_not_le hpc
    exact .inl ⟨hout, step_of_fetch_outside hout⟩

/-- What a step leaves, case by case. -/
theorem leaves_step {s t : State} (h : leaves (step s) = some t) :
    (4095 < s.pc.toNat + 1 ∧ t = s) ∨ (s.pc.toNat + 1 ≤ 4095 ∧ t = s.fetched) ∨
    (s.pc.toNat + 1 ≤ 4095 ∧ ∃ i, decodeWord s.fetchedWord = .ok i ∧ leaves (exec i s.fetched) = some t) := by
  rcases step_cases s with ⟨hout, hs⟩ | ⟨hin, hs⟩ | ⟨hin, i, hd, hs⟩ <;> rw [hs] at h
  · exact .inl ⟨hout, (Option.some.inj h).symm⟩
  · exact .inr (.inl ⟨hin, (Option.some.inj h).symm⟩)
  · exact .inr (.inr ⟨hin, i, hd, h⟩)

/-- A step that completes ran an instruction on the fetched state. -/
theorem step_eq_next {s t : State} (h : step s = .next t) :
    s.pc.toNat + 1 ≤ 4095 ∧ ∃ i, decodeWord s.fetchedWord = .ok i ∧ exec i s.fetched = .next t := by
  rcases step_cases s with ⟨-, hs⟩ | ⟨-, hs⟩ | ⟨hin, i, hd, hs⟩ <;> rw [hs] at h
  · cases h
  · cases h
  · exact ⟨hin, i, hd, h⟩

/-! ### The program counter -/

/-- How an instruction leaves `pc`: a jump, call or return apart, moved by 2 by a skip, taken back by 2 by the key wait,
and otherwise as it was. -/
theorem exec_pc {i : Instr} {s t : State} (h : leaves (exec i s) = some t) :
    i = .ret ∨ (∃ nnn, i = .jp nnn ∨ i = .jpV0 nnn ∨ i = .call nnn) ∨ IsSkip i ∧ t.pc = s.pc + 2 ∨
    (∃ x, i = .ldVxK x) ∧ t.pc = s.pc - 2 ∨ t.pc = s.pc := by
  have hframe := congrArg State.pc (exec_frame h)
  cases i
  case ret | jp | jpV0 | call => simp
  case seImm | sneImm | seReg | sneReg | skp | sknp =>
    rcases leaves_skip h (by simp [IsSkip]) with rfl | rfl <;> simp [IsSkip]
  case ldVxK => rcases leaves_ldVxK h with ⟨v, rfl⟩ | rfl <;> simp
  all_goals exact .inr (.inr (.inr (.inr hframe)))

theorem toNat_offsetOperand (s : State) (x : Reg) : (offsetOperand s x).toNat = (s.getV x).toNat :=
  BitVec.toNat_setWidth_of_le (by decide)

/-- The sum of JP V0 is not reduced: an address and a byte fit 16 bits (40_flow.md R103). -/
theorem toNat_addrOperand_add_offsetOperand (nnn : Addr12) (s : State) (x : Reg) :
    (addrOperand nnn + offsetOperand s x).toNat = nnn.toNat + (s.getV x).toNat := by
  have hn : nnn.toNat < 4096 := nnn.isLt
  have hv : (s.getV x).toNat < 256 := (s.getV x).isLt
  rw [BitVec.toNat_add_of_lt, toNat_addrOperand, toNat_offsetOperand]
  rw [toNat_addrOperand, toNat_offsetOperand]
  change _ < 65536
  omega

/-- The bound of `pc` after an instruction: a jump goes to at most 0xFFF + 0xFF, a return to a stack entry, and a skip or
the key wait moves `pc` by 2. -/
theorem exec_pc_le {i : Instr} {s t : State} (h : leaves (exec i s) = some t) (hlo : 2 ≤ s.pc.toNat)
    (hhi : s.pc.toNat ≤ 4096) (hstack : ∀ k : Fin 16, (s.stack[k.val]).toNat ≤ 4096) : t.pc.toNat ≤ 0x10FE := by
  have haddr : ∀ nnn : Addr12, (addrOperand nnn).toNat < 4096 := fun nnn => (toNat_addrOperand nnn).trans_lt nnn.isLt
  rcases exec_pc h with rfl | ⟨nnn, rfl | rfl | rfl⟩ | ⟨-, hpc⟩ | ⟨-, hpc⟩ | hpc
  · rcases leaves_ret h with rfl | ⟨k, hk⟩
    · omega
    · rw [show t.pc = s.stack[k.val] by rw [hk]]
      exact (hstack k).trans (by decide)
  · obtain rfl := Option.some.inj h
    exact (haddr nnn).le.trans (by decide)
  · obtain rfl := Option.some.inj h
    have hv : (s.getV 0).toNat < 256 := (s.getV 0).isLt
    have hn : nnn.toNat < 4096 := nnn.isLt
    change (addrOperand nnn + offsetOperand s 0).toNat ≤ _
    rw [toNat_addrOperand_add_offsetOperand]
    omega
  · rcases leaves_call h with rfl | ⟨-, rfl⟩
    · omega
    · exact (haddr nnn).le.trans (by decide)
  · bv_omega
  · bv_omega
  · rw [hpc]
    omega

/-! ### The invariant -/

/-- A stack entry after an instruction is an old one or the pushed `pc`. -/
theorem exec_stack_le {i : Instr} {s t : State} (h : leaves (exec i s) = some t) (hhi : s.pc.toNat ≤ 4096)
    (hstack : ∀ k : Fin 16, (s.stack[k.val]).toNat ≤ 4096) (k : Fin 16) : (t.stack[k.val]).toNat ≤ 4096 := by
  by_cases hst : t.stack = s.stack
  · rw [hst]
    exact hstack k
  · obtain ⟨nnn, rfl⟩ := exec_writes_stack h hst
    rcases leaves_call h with rfl | ⟨hsp, rfl⟩
    · exact hstack k
    · rw [Vector.getElem_set]
      split
      · exact hhi
      · exact hstack k

/-- No instruction breaks the canonical form of memory. -/
theorem exec_keeps_mem_wf {i : Instr} {s t : State} (h : leaves (exec i s) = some t) (hm : s.mem.wf = true) :
    t.mem.wf = true := by
  by_cases hmem : t.mem = s.mem
  · rw [hmem]
    exact hm
  · obtain ⟨x, rfl | rfl⟩ := exec_writes_mem h hmem
    · exact (storeBytes_leaves h).2.1 hm
    · exact (storeBytes_leaves h).2.1 hm

/-- Settles O52: a step that fetches outside memory changes nothing; a fetch advances `pc` to at most 4096, which an
unknown opcode leaves and from which an instruction keeps each part of the invariant. -/
theorem stepKeepsTheInvariant : Obligations.StepKeepsTheInvariant := by
  intro s t hinv h
  obtain ⟨hm, hpc, hstack⟩ := hinv
  rcases leaves_step h with ⟨-, rfl⟩ | ⟨hin, rfl⟩ | ⟨hin, i, -, hi⟩
  · exact ⟨hm, hpc, hstack⟩
  · refine ⟨hm, ?_, hstack⟩
    rw [toNat_fetched_pc hin]
    omega
  · have hadv := toNat_fetched_pc hin
    exact ⟨exec_keeps_mem_wf hi hm, exec_pc_le hi (by omega) (by omega) hstack,
      exec_stack_le hi (by omega) hstack⟩

/-! ### The latch and `pc` after a step -/

/-- A step that completes leaves its next state. -/
theorem leaves_of_eq_next {o : Result} {t : State} (h : o = .next t) : leaves o = some t := by
  rw [h, leaves_next]

/-- A step that faults leaves the state of the fault. -/
theorem leaves_of_eq_fault {o : Result} {f : Fault} (h : o = .fault f) : leaves o = some f.leftState := by
  rw [h, leaves_fault]

/-- The latch after a step, completed or faulted: the fetched word, or the old latch when the fetch itself faulted. -/
theorem opcode_of_leaves_step {s t : State} (h : leaves (step s) = some t) :
    t.opcode = if s.pc.toNat + 1 ≤ 4095 then s.fetchedWord else s.opcode := by
  rcases leaves_step h with ⟨hout, rfl⟩ | ⟨hin, rfl⟩ | ⟨hin, i, -, hi⟩
  · rw [if_neg (by omega)]
  · rw [if_pos hin, State.fetched_opcode]
  · rw [if_pos hin, exec_keeps_opcode hi, State.fetched_opcode]

/-- Settles O3: a completed step fetched inside memory, and no instruction writes the latch after that. -/
theorem stepLatchesTheFetchedWord : Obligations.StepLatchesTheFetchedWord := by
  constructor
  · intro s t h
    rw [opcode_of_leaves_step (leaves_of_eq_next h), if_pos (step_eq_next h).1]
  · intro s f h
    exact opcode_of_leaves_step (leaves_of_eq_fault h)

/-- Settles O59: the fetch advances `pc` by 2, and the instruction leaves it as it does. -/
theorem stepAdvancesPcByInstruction : Obligations.StepAdvancesPcByInstruction := by
  intro s t i h hd
  obtain ⟨hin, j, hj, hexec⟩ := step_eq_next h
  obtain rfl : j = i := Except.ok.inj (hj.symm.trans hd)
  have hadv := toNat_fetched_pc hin
  rcases exec_pc (leaves_of_eq_next hexec) with hret | hjump | ⟨hskip, hpc⟩ | ⟨hwait, hpc⟩ | hpc
  · exact .inl hret
  · exact .inr (.inl hjump)
  · exact .inr (.inr (.inl ⟨hskip, .inl (by bv_omega)⟩))
  · exact .inr (.inr (.inr (.inl ⟨hwait, .inl (by rw [hpc, State.fetched_pc, BitVec.add_sub_cancel])⟩)))
  · exact .inr (.inr (.inr (.inr (by rw [hpc, hadv]))))

/-- Settles O2: the bytes at `pc` decode as their word does. -/
theorem stepRunsTheDecodedInstruction : Obligations.StepRunsTheDecodedInstruction := by
  intro s i _ hpc hd
  simp only [decode] at hd
  split at hd
  next j hj =>
    obtain rfl : j = i := (Prod.mk.inj (Except.ok.inj hd)).1
    exact step_eq_exec_fetched hpc hj
  next => cases hd

end Sys2Proof.Machine
end

section
/-! PROOFS. 60_exceptions.md R191, R192: when an instruction completes, and what it raises when it does not. -/

namespace Sys2Proof.Machine

/-- A store of `m + 1` bytes completes when the last lies in memory, and otherwise raises MemoryOutOfBounds. -/
theorem storeBytes_completes_or_faults {bs : List Byte} {m : Nat} (hm : bs.length = m + 1) (a : Nat) (s : State) :
    (a + m ≤ 4095 ∧ ∃ t, storeBytes a bs s = .next t) ∨
    (¬ a + m ≤ 4095 ∧ ∃ c t, storeBytes a bs s = .fault (.memoryOutOfBounds c t)) := by
  by_cases hfit : a + m ≤ 4095
  · exact .inl ⟨hfit, _, storeBytes_fits (by omega)⟩
  · refine .inr ⟨hfit, ?_⟩
    by_cases ha : a ≤ 4096
    · exact ⟨_, _, storeBytes_crosses ha (by omega)⟩
    · obtain ⟨b, bs, rfl⟩ := List.exists_cons_of_length_eq_add_one hm
      exact ⟨_, _, storeBytes_outside (by omega)⟩

/-- A load of `m + 1` distinct registers completes when the last byte lies in memory, and otherwise raises
MemoryOutOfBounds. -/
theorem loadBytes_completes_or_faults {ks : List Reg} {m : Nat} (hm : ks.length = m + 1) (hn : ks.Nodup) (a : Nat)
    (s : State) :
    (a + m ≤ 4095 ∧ ∃ t, loadBytes a ks s = .next t) ∨
    (¬ a + m ≤ 4095 ∧ ∃ c t, loadBytes a ks s = .fault (.memoryOutOfBounds c t)) := by
  by_cases hfit : a + m ≤ 4095
  · obtain ⟨t, ht, -⟩ := loadBytes_fits (s := s) hn (by omega : a + ks.length ≤ 4096)
    exact .inl ⟨hfit, t, ht⟩
  · refine .inr ⟨hfit, ?_⟩
    by_cases ha : a ≤ 4096
    · obtain ⟨t, ht, -⟩ := loadBytes_crosses (s := s) ha (by omega : 4096 < a + ks.length)
      exact ⟨_, t, ht⟩
    · obtain ⟨k, ks, rfl⟩ := List.exists_cons_of_length_eq_add_one hm
      exact ⟨_, _, loadBytes_outside (by omega)⟩

/-- A key instruction that cannot fail on a key completes when `V[x]` names one, and otherwise raises
KeypadOutOfBounds. -/
theorem withKey_completes_or_faults (s : State) (x : Reg) (g : Key → State) :
    ((s.getV x).toNat ≤ 15 ∧ ∃ t, withKey s x (fun k => .next (g k)) = .next t) ∨
    (¬ (s.getV x).toNat ≤ 15 ∧
      withKey s x (fun k => .next (g k)) = .fault (.keypadOutOfBounds (s.getV x).toNat s)) := by
  by_cases hx : (s.getV x).toNat < 16
  · exact .inl ⟨Nat.le_of_lt_succ hx, _, withKey_of_le hx _⟩
  · exact .inr ⟨fun h => hx (Nat.lt_succ_of_le h), withKey_of_gt hx _⟩

/-- The key wait completes with a key and without one. -/
theorem ldVxK_completes (x : Reg) (s : State) : ∃ t, exec (.ldVxK x) s = .next t := by
  cases hk : s.firstKey with
  | some k => exact ⟨_, exec_ldVxK_of_key hk⟩
  | none => exact ⟨_, exec_ldVxK_of_no_key hk⟩

/-- The faults of 60_exceptions.md R192, instruction by instruction. -/
def CanRaise (i : Instr) (s : State) (f : Fault) : Prop :=
  (∃ nnn, i = .call nnn ∧ f = .stackOverflow s) ∨
  (i = .ret ∧ f = .stackUnderflow s) ∨
  (∃ x y n, i = .drw x y n ∧ (f.code = 3 ∨ f.code = 6)) ∨
  (∃ x, (i = .ldB x ∨ i = .storeRegs x ∨ i = .loadRegs x) ∧ f.code = 3) ∨
  (∃ x, (i = .skp x ∨ i = .sknp x) ∧ f = .keypadOutOfBounds (s.getV x).toNat s)

/-- An instruction completes under its condition, and otherwise raises a fault of its own. -/
theorem exec_completes_or_faults (i : Instr) (s : State) :
    (Runnable i s ∧ ∃ t, exec i s = .next t) ∨ (¬ Runnable i s ∧ ∃ f, exec i s = .fault f ∧ CanRaise i s f) := by
  cases i
  case ret =>
    by_cases hsp : 0 < s.sp.val
    · exact .inl ⟨hsp, _, popPc_of_pos hsp⟩
    · exact .inr ⟨hsp, _, popPc_of_empty hsp, .inr (.inl ⟨rfl, rfl⟩)⟩
  case call nnn =>
    by_cases hsp : s.sp.val < 16
    · exact .inl ⟨hsp, _, exec_call_of_lt nnn hsp⟩
    · exact .inr ⟨hsp, _, exec_call_of_full nnn hsp, .inl ⟨nnn, rfl, rfl⟩⟩
  case skp x =>
    rcases withKey_completes_or_faults s x fun k => s.skipIf (s.keyDown k) with hnext | ⟨hx, hf⟩
    · exact .inl hnext
    · exact .inr ⟨hx, _, hf, .inr (.inr (.inr (.inr ⟨x, .inl rfl, rfl⟩)))⟩
  case sknp x =>
    rcases withKey_completes_or_faults s x fun k => s.skipIf (!s.keyDown k) with hnext | ⟨hx, hf⟩
    · exact .inl hnext
    · exact .inr ⟨hx, _, hf, .inr (.inr (.inr (.inr ⟨x, .inr rfl, rfl⟩)))⟩
  case drw x y n =>
    rcases execDrw_spec x y n s with ⟨t, ht, hfits, -⟩ | ⟨r, c, t, f, -, hf, -, hfits, -, -, hfault⟩
    · exact .inl ⟨hfits, t, ht⟩
    · refine .inr ⟨hfits, f, hf, .inr (.inr (.inl ⟨x, y, n, rfl, ?_⟩))⟩
      rcases hfault with ⟨rfl, -⟩ | ⟨rfl, -⟩
      · exact .inl rfl
      · exact .inr rfl
  case ldB x =>
    rcases storeBytes_completes_or_faults (bs := bcdDigits (s.getV x)) rfl (indexAddr s 0) s with
      hnext | ⟨hout, c, t, hf⟩
    · exact .inl hnext
    · exact .inr ⟨hout, _, hf, .inr (.inr (.inr (.inl ⟨x, .inl rfl, rfl⟩)))⟩
  case storeRegs x =>
    rcases storeBytes_completes_or_faults (List.length_map (as := regsUpTo x) s.getV |>.trans (regsUpTo_length x))
      (indexAddr s 0) s with hnext | ⟨hout, c, t, hf⟩
    · exact .inl hnext
    · exact .inr ⟨hout, _, hf, .inr (.inr (.inr (.inl ⟨x, .inr (.inl rfl), rfl⟩)))⟩
  case loadRegs x =>
    rcases loadBytes_completes_or_faults (regsUpTo_length x) (regsUpTo_nodup x) (indexAddr s 0) s with
      hnext | ⟨hout, c, t, hf⟩
    · exact .inl hnext
    · exact .inr ⟨hout, _, hf, .inr (.inr (.inr (.inl ⟨x, .inr (.inr rfl), rfl⟩)))⟩
  case ldVxK x => exact .inl ⟨trivial, ldVxK_completes x s⟩
  all_goals exact .inl ⟨trivial, _, rfl⟩

theorem exec_ne_refused (i : Instr) (s : State) (r : Refusal) : exec i s ≠ .refused r := by
  rcases exec_completes_or_faults i s with ⟨-, t, ht⟩ | ⟨-, f, hf, -⟩
  · simp [ht]
  · simp [hf]

theorem step_ne_refused (s : State) (r : Refusal) : step s ≠ .refused r := by
  rcases step_cases s with ⟨-, hs⟩ | ⟨-, hs⟩ | ⟨-, i, -, hs⟩ <;> rw [hs]
  · simp
  · simp
  · exact exec_ne_refused i s.fetched r

/-- Settles O54: each instruction completes under its condition and faults without it. -/
theorem completesExactlyWhenRunnable : Obligations.CompletesExactlyWhenRunnable := by
  refine ⟨fun i s => ?_, exec_ne_refused, step_ne_refused⟩
  rcases exec_completes_or_faults i s with ⟨hrun, hnext⟩ | ⟨hrun, f, hf, -⟩
  · exact iff_of_true hnext hrun
  · exact iff_of_false (by simp [hf]) hrun

/-- Settles O55: an instruction that faults raises one of its own faults. -/
theorem faultsByInstruction : Obligations.FaultsByInstruction := by
  intro i s f h
  rcases exec_completes_or_faults i s with ⟨-, t, ht⟩ | ⟨-, g, hg, hraise⟩
  · rw [ht] at h
    cases h
  · obtain rfl : g = f := Host.Outcome.fault.inj (hg.symm.trans h)
    exact hraise

end Sys2Proof.Machine
end

section
/-! PROOFS. 10_state.md R30 and 44_keypad_timers.md R175: no instruction reads the latch or the sound timer. -/

namespace Sys2Proof.Machine

/-- A state with another latch and another sound timer. -/
def State.withLatchAndST (s : State) (w : Word) (v : Byte) : State := { s with opcode := w, ST := v }

/-- Where `f` completes, it does so with any other latch and sound timer, and passes them on. -/
def Blind (f : State → Result) : Prop :=
  ∀ (s t : State) (w : Word) (v : Byte), f s = .next t → f (s.withLatchAndST w v) = .next (t.withLatchAndST w v)

theorem Blind.andThen {f g : State → Result} (hf : Blind f) (hg : Blind g) : Blind fun s => andThen (f s) g := by
  intro s t w v h
  beta_reduce at h ⊢
  obtain ⟨u, hu, ht⟩ := andThen_eq_next.mp h
  rw [hf s u w v hu, andThen_next, hg u t w v ht]

/-- A read hands on a byte of memory alone. -/
theorem Blind.memRead {f : Byte → State → Result} (hf : ∀ b, Blind (f b)) (a : Nat) :
    Blind fun s => memRead a s fun b => f b s := by
  intro s t w v h
  beta_reduce at h ⊢
  by_cases ha : a ≤ 4095
  · rw [memRead_of_le ha] at h ⊢
    exact hf _ s t w v h
  · rw [memRead_of_gt (by omega)] at h
    cases h

theorem blind_next : Blind .next := by
  intro s t w v h
  cases h
  rfl

theorem blind_setPc (target : Word) : Blind fun s => .next (s.setPc target) := by
  intro s t w v h
  cases h
  rfl

theorem blind_memWrite (a : Nat) (b : Byte) : Blind (memWrite a b) := by
  intro s t w v h
  by_cases ha : a ≤ 4095
  · rw [memWrite_of_le ha] at h ⊢
    cases h
    rfl
  · rw [memWrite_of_gt (by omega)] at h
    cases h

theorem blind_storeBytes (bs : List Byte) : ∀ a, Blind (storeBytes a bs) := by
  induction bs with
  | nil => exact fun _ => blind_next
  | cons b bs ih => exact fun a => (blind_memWrite a b).andThen (ih (a + 1))

theorem blind_loadBytes (ks : List Reg) : ∀ a, Blind (loadBytes a ks) := by
  induction ks with
  | nil => exact fun _ => blind_next
  | cons k ks ih => exact fun a => Blind.memRead (fun b s t w v => ih (a + 1) (s.setV k b) t w v) a

theorem blind_drawPixel (col row : Nat) : Blind (drawPixel col row) := by
  intro s t w v h
  unfold drawPixel at h ⊢
  split at h
  next hgrid =>
    cases h
    rw [dif_pos hgrid]
    refine congrArg Host.Outcome.next ?_
    change (if s.cell _ _ then (s.withLatchAndST w v).setVF 1 else s.withLatchAndST w v).flipCell _ _ =
      ((if s.cell _ _ then s.setVF 1 else s).flipCell _ _).withLatchAndST w v
    split <;> rfl
  next => cases h

theorem blind_drawPixels (cx row : Nat) (b : Byte) (cs : List Nat) : Blind (drawPixels cx row b cs) := by
  induction cs with
  | nil => exact blind_next
  | cons c cs ih =>
    refine Blind.andThen ?_ ih
    cases spriteBit b c
    · exact blind_next
    · exact blind_drawPixel _ _

theorem blind_drawRows (cx cy base : Nat) (rs : List Nat) : Blind (drawRows cx cy base rs) := by
  induction rs with
  | nil => exact blind_next
  | cons r rs ih => exact (Blind.memRead (fun b => blind_drawPixels cx (cy + r) b _) _).andThen ih

theorem blind_pushPc : Blind pushPc := by
  intro s t w v h
  by_cases hsp : s.sp.val < 16
  · rw [pushPc_of_lt hsp] at h
    cases h
    exact pushPc_of_lt (s := s.withLatchAndST w v) hsp
  · rw [pushPc_of_full hsp] at h
    cases h

theorem blind_popPc : Blind popPc := by
  intro s t w v h
  by_cases hsp : 0 < s.sp.val
  · rw [popPc_of_pos hsp] at h
    cases h
    exact popPc_of_pos (s := s.withLatchAndST w v) hsp
  · rw [popPc_of_empty hsp] at h
    cases h

theorem skipIf_withLatchAndST (s : State) (w : Word) (v : Byte) (c : Bool) :
    (s.withLatchAndST w v).skipIf c = (s.skipIf c).withLatchAndST w v := by
  cases c <;> rfl

theorem blind_keySkip (x : Reg) (c : State → Key → Bool) (hc : ∀ s w v k, c (s.withLatchAndST w v) k = c s k) :
    Blind fun s => withKey s x fun k => .next (s.skipIf (c s k)) := by
  intro s t w v h
  beta_reduce at h ⊢
  by_cases hx : (s.getV x).toNat < 16
  · rw [withKey_of_le hx] at h
    cases h
    rw [withKey_of_le (s := s.withLatchAndST w v) hx, skipIf_withLatchAndST, hc]
    rfl
  · rw [withKey_of_gt hx] at h
    cases h

theorem blind_ldVxK (x : Reg) : Blind (exec (.ldVxK x)) := by
  intro s t w v h
  cases hk : s.firstKey with
  | some k =>
    rw [exec_ldVxK_of_key hk] at h
    cases h
    exact exec_ldVxK_of_key (s := s.withLatchAndST w v) hk
  | none =>
    rw [exec_ldVxK_of_no_key hk] at h
    cases h
    exact exec_ldVxK_of_no_key (s := s.withLatchAndST w v) hk

/-- Every instruction but the load of the sound timer leaves both pieces unread. -/
theorem blind_exec {i : Instr} (hi : ∀ x, i ≠ .ldSTVx x) : Blind (exec i) := by
  intro s t w v h
  cases i
  case ldSTVx x => exact absurd rfl (hi x)
  case ret => exact blind_popPc s t w v h
  case call nnn => exact (blind_pushPc.andThen (blind_setPc _)) s t w v h
  case seImm | sneImm | seReg | sneReg =>
    cases h
    exact congrArg _ (skipIf_withLatchAndST s w v _)
  case skp => exact blind_keySkip _ (fun s k => s.keyDown k) (fun _ _ _ _ => rfl) s t w v h
  case sknp => exact blind_keySkip _ (fun s k => !s.keyDown k) (fun _ _ _ _ => rfl) s t w v h
  case ldVxK => exact blind_ldVxK _ s t w v h
  case drw => exact blind_drawRows _ _ _ _ (s.setVF 0) t w v h
  case ldB | storeRegs => exact blind_storeBytes _ _ s t w v h
  case loadRegs => exact blind_loadBytes _ _ s t w v h
  all_goals
    cases h
    rfl

/-- Settles O58: the load of the sound timer writes its own value over any other; every other instruction passes both
pieces on. -/
theorem latchAndSoundTimerAreNeverRead : Obligations.LatchAndSoundTimerAreNeverRead := by
  intro i s t w v h
  by_cases hi : ∃ x, i = .ldSTVx x
  · rw [if_pos hi]
    obtain ⟨x, rfl⟩ := hi
    cases h
    rfl
  · rw [if_neg hi]
    exact blind_exec (fun x hx => hi ⟨x, hx⟩) s t w v h

end Sys2Proof.Machine
end

section
/-! PROOFS. 40_flow.md R101 to R103: JP V0, and a call with its return. -/

namespace Sys2Proof.Machine

theorem exec_jpV0 (nnn : Addr12) (s : State) :
    exec (.jpV0 nnn) s = .next { s with pc := addrOperand nnn + offsetOperand s 0 } := rfl

/-- Settles O12: the sum of a 12-bit address and a byte fits `pc`. -/
theorem jpV0AddsWithoutReduction : Obligations.JpV0AddsWithoutReduction := by
  intro nnn s
  exact ⟨_, toNat_addrOperand_add_offsetOperand nnn s 0, exec_jpV0 nnn s⟩

/-- Settles O15: the return pops the entry that the call pushed, and no other entry was written. -/
theorem callThenRetReturns : Obligations.CallThenRetReturns := by
  intro nnn s hsp
  rw [exec_call_of_lt nnn hsp, andThen_next, exec_ret, popPc_of_pos (Nat.succ_pos _)]
  refine ⟨_, rfl, ?_, rfl, ?_, ?_⟩
  · exact Vector.getElem_set_self _
  · simp
  · intro k hk
    exact Vector.getElem_set_ne hsp _ (Ne.symm hk)

end Sys2Proof.Machine
end

section
/-! PROOFS. 41_alu.md R121 to R134: logic, subtraction, shifts and the random byte. -/

namespace Sys2Proof.Machine

/-! ### The instructions as register writes -/

theorem exec_addImm (x : Reg) (kk : Byte) (s : State) : exec (.addImm x kk) s = .next (s.setV x (s.getV x + kk)) := rfl

theorem exec_orReg (x y : Reg) (s : State) : exec (.orReg x y) s = .next (s.setV x (s.getV x ||| s.getV y)) := rfl

theorem exec_andReg (x y : Reg) (s : State) : exec (.andReg x y) s = .next (s.setV x (s.getV x &&& s.getV y)) := rfl

theorem exec_xorReg (x y : Reg) (s : State) : exec (.xorReg x y) s = .next (s.setV x (s.getV x ^^^ s.getV y)) := rfl

theorem exec_subReg (x y : Reg) (s : State) :
    exec (.subReg x y) s =
      .next (flagThenUpdate s (greaterFlag (s.getV x) (s.getV y)) x fun t => t.getV x - t.getV y) := rfl

theorem exec_subnReg (x y : Reg) (s : State) :
    exec (.subnReg x y) s =
      .next (flagThenUpdate s (greaterFlag (s.getV y) (s.getV x)) x fun t => t.getV y - t.getV x) := rfl

theorem exec_shr (x y : Reg) (s : State) :
    exec (.shr x y) s = .next (flagThenUpdate s (lowBitFlag (s.getV x)) x fun t => t.getV x >>> 1) := rfl

theorem exec_shl (x y : Reg) (s : State) :
    exec (.shl x y) s = .next (flagThenUpdate s (highBitFlag (s.getV x)) x fun t => t.getV x <<< 1) := rfl

theorem exec_rnd (x : Reg) (kk : Byte) (s : State) :
    exec (.rnd x kk) s =
      .next ({ s with draws := s.draws + 1 }.setV x (Config.randomByte s.draws &&& kk)) := rfl

/-- Settles O18: each of the four is one register write. -/
theorem addImmediateAndLogicResults : Obligations.AddImmediateAndLogicResults := by
  intro x y kk s
  rw [exec_addImm, exec_orReg, exec_andReg, exec_xorReg, byte_add_eq_ofNat]
  exact ⟨⟨_, rfl, registersBecome_setV s x _⟩, ⟨_, rfl, registersBecome_setV s x _⟩,
    ⟨_, rfl, registersBecome_setV s x _⟩, ⟨_, rfl, registersBecome_setV s x _⟩⟩

/-! ### The flag first, then the result -/

theorem RegistersBecome.congr {s t : State} {f g : Reg → Byte} (h : RegistersBecome s t f) (hfg : ∀ k, f k = g k) :
    RegistersBecome s t g :=
  ⟨h.1, fun k => (h.2 k).trans (hfg k)⟩

/-- The registers after a flag write and a result computed from what it left (decision D8). -/
theorem registersBecome_flagThenUpdate (s : State) (flag : Byte) (x : Reg) (result : State → Byte) :
    RegistersBecome s (flagThenUpdate s flag x result) fun k =>
      if k = x then result (s.setV 15 flag) else if k = 15 then flag else s.getV k :=
  (registersBecome_setV s 15 flag).setV x _

/-! ### Bytes as numbers -/

/-- Subtraction of bytes is subtraction modulo 256. -/
theorem byte_sub_eq_ofNat (a b : Byte) : a - b = BitVec.ofNat 8 ((a.toNat + 256 - b.toNat) % 256) := by
  have hb : b.toNat < 256 := b.isLt
  apply BitVec.eq_of_toNat_eq
  rw [BitVec.toNat_sub, BitVec.toNat_ofNat, Nat.mod_mod]
  congr 1
  omega

theorem byte_shiftRight_eq_ofNat (a : Byte) : a >>> 1 = BitVec.ofNat 8 (a.toNat / 2) := by
  have ha : a.toNat < 256 := a.isLt
  apply BitVec.eq_of_toNat_eq
  rw [BitVec.toNat_ushiftRight, BitVec.toNat_ofNat, Nat.shiftRight_eq_div_pow]
  omega

theorem byte_shiftLeft_eq_ofNat (a : Byte) : a <<< 1 = BitVec.ofNat 8 (2 * a.toNat % 256) := by
  apply BitVec.eq_of_toNat_eq
  rw [BitVec.toNat_shiftLeft, BitVec.toNat_ofNat, Nat.shiftLeft_eq]
  omega

/-- The flag of a bit is the bit. -/
theorem flagByte_testBit (n i : Nat) : flagByte (n.testBit i) = BitVec.ofNat 8 (n / 2 ^ i % 2) := by
  rw [Nat.testBit_eq_decide_div_mod_eq, flagByte_decide]
  rcases Nat.mod_two_eq_zero_or_one (n / 2 ^ i) with h | h <;> rw [h] <;> rfl

theorem lowBitFlag_eq_ofNat (a : Byte) : lowBitFlag a = BitVec.ofNat 8 (a.toNat % 2) := by
  rw [lowBitFlag, BitVec.getLsbD, flagByte_testBit, Nat.pow_zero, Nat.div_one]

theorem highBitFlag_eq_ofNat (a : Byte) : highBitFlag a = BitVec.ofNat 8 (a.toNat / 128) := by
  have ha : a.toNat < 256 := a.isLt
  rw [highBitFlag, BitVec.getLsbD, flagByte_testBit]
  congr 1
  omega

theorem greaterFlag_eq_ofNat (a b : Byte) : greaterFlag a b = BitVec.ofNat 8 (if b.toNat < a.toNat then 1 else 0) := by
  rw [greaterFlag, flagByte_decide]
  split <;> rfl

theorem toNat_greaterFlag (a b : Byte) : (greaterFlag a b).toNat = if b.toNat < a.toNat then 1 else 0 := by
  rw [greaterFlag_eq_ofNat]
  split <;> rfl

/-- The flag of a subtraction as a number. -/
def borrowFree (s : State) (m d : Reg) : Nat := if (s.getV d).toNat < (s.getV m).toNat then 1 else 0

/-- An operand of a subtraction as a number: register 15 is read again after the flag write (decision D8). -/
def operandAfterFlag (s : State) (flag : Nat) (r : Reg) : Nat := if r = 15 then flag else (s.getV r).toNat

/-- The registers after a subtraction of register `d` from register `m` into `x`. -/
theorem registersBecome_subtraction (s : State) (x m d : Reg) :
    RegistersBecome s (flagThenUpdate s (greaterFlag (s.getV m) (s.getV d)) x fun t => t.getV m - t.getV d) fun k =>
      if k = x then BitVec.ofNat 8
        ((operandAfterFlag s (borrowFree s m d) m + 256 - operandAfterFlag s (borrowFree s m d) d) % 256)
      else if k = 15 then BitVec.ofNat 8 (borrowFree s m d) else s.getV k := by
  have hread : ∀ r, ((s.setV 15 (greaterFlag (s.getV m) (s.getV d))).getV r).toNat =
      operandAfterFlag s (borrowFree s m d) r := by
    intro r
    rw [State.getV_setV, apply_ite BitVec.toNat, toNat_greaterFlag]
    rfl
  refine (registersBecome_flagThenUpdate ..).congr fun k => ?_
  rw [byte_sub_eq_ofNat, hread, hread, greaterFlag_eq_ofNat]
  rfl

/-- A second write to the same register is the one that stays. -/
theorem ite_ite_same_cond {p : Prop} [Decidable p] (a b c : Byte) :
    (if p then a else if p then b else c) = if p then a else c := by
  by_cases h : p <;> simp [h]

/-- Settles O20: the flag is written first, so register 15 as an operand is read again as the flag, and as the
destination loses it to the difference (41_alu.md R134). -/
theorem subtractionsWithRegister15Cases : Obligations.SubtractionsWithRegister15Cases := by
  intro x y s
  constructor
  · refine ⟨_, exec_subReg x y s, (registersBecome_subtraction s x x y).congr fun k => ?_⟩
    by_cases hx : x = 15 <;> by_cases hy : y = 15 <;> simp [hx, hy, operandAfterFlag, borrowFree, ite_ite_same_cond]
  · refine ⟨_, exec_subnReg x y s, (registersBecome_subtraction s x y x).congr fun k => ?_⟩
    by_cases hx : x = 15 <;> by_cases hy : y = 15 <;> simp [hx, hy, operandAfterFlag, borrowFree, ite_ite_same_cond]

/-- Settles O21: `y` is not read; with `x = 15` the flag bit itself is shifted, so SHR leaves 0 and SHL twice the bit. -/
theorem shiftsByOneIgnoreY : Obligations.ShiftsByOneIgnoreY := by
  intro x y s
  have hV : (s.getV 15).toNat < 256 := (s.getV 15).isLt
  constructor
  · refine ⟨_, exec_shr x y s, (registersBecome_flagThenUpdate ..).congr fun k => ?_⟩
    have hbit : (s.getV 15).toNat % 2 % 256 / 2 = 0 := by omega
    by_cases hx : x = 15
    · simp [hx, byte_shiftRight_eq_ofNat, lowBitFlag_eq_ofNat, ite_ite_same_cond, hbit]
    · simp [hx, byte_shiftRight_eq_ofNat, lowBitFlag_eq_ofNat]
  · refine ⟨_, exec_shl x y s, (registersBecome_flagThenUpdate ..).congr fun k => ?_⟩
    have hbit : 2 * ((s.getV 15).toNat / 128) % 256 = 2 * ((s.getV 15).toNat / 128) := by omega
    by_cases hx : x = 15
    · simp [hx, byte_shiftLeft_eq_ofNat, highBitFlag_eq_ofNat, ite_ite_same_cond, hbit]
    · simp [hx, byte_shiftLeft_eq_ofNat, highBitFlag_eq_ofNat]

/-- Settles O22: the draw is masked before it is written. -/
theorem randomByteUnderTheMask : Obligations.RandomByteUnderTheMask := by
  intro x kk s
  have hV := State.getV_setV { s with draws := s.draws + 1 } x
  refine ⟨_, exec_rnd x kk s, rfl, fun k => hV k _, ?_, ?_⟩
  · rw [hV, if_pos rfl, BitVec.and_assoc, BitVec.and_not_self]
    exact BitVec.and_zero
  · rw [hV, if_pos rfl, BitVec.toNat_and]
    exact Nat.and_le_right

end Sys2Proof.Machine
end

section
/-! PROOFS. 42_index_memory.md R142, R143 and 20_memory.md R64: the index arithmetic, and what a block store leaves to
be read. -/

namespace Sys2Proof.Machine

theorem exec_addI (x : Reg) (s : State) : exec (.addI x) s = .next { s with I := s.I + offsetOperand s x } := rfl

theorem exec_ldF (x : Reg) (s : State) : exec (.ldF x) s = .next { s with I := glyphAddr s x } := rfl

/-- The glyph address of the whole byte fits `I`. -/
theorem toNat_glyphAddr (s : State) (x : Reg) : (glyphAddr s x).toNat = 0x50 + 5 * (s.getV x).toNat := by
  have hv : (s.getV x).toNat < 256 := (s.getV x).isLt
  rw [glyphAddr, BitVec.toNat_ofNat, fontBase, Nat.mod_eq_of_lt]
  omega

/-- Settles O24: the sum of 16-bit words is modulo 65536, and the glyph address needs no reduction. -/
theorem addIAndLdFSetTheIndex : Obligations.AddIAndLdFSetTheIndex := by
  intro x s
  refine ⟨⟨_, ?_, exec_addI x s⟩, ⟨_, toNat_glyphAddr s x, exec_ldF x s⟩⟩
  rw [BitVec.toNat_add, toNat_offsetOperand]

/-- A block store that completes lies in memory, changes memory alone, and leaves each register `k` up to `x` at
`I + k`. -/
theorem storeRegs_eq_next {x : Reg} {s t : State} (hm : s.mem.wf = true) (h : exec (.storeRegs x) s = .next t) :
    indexAddr s x.val ≤ 4095 ∧ t = { s with mem := t.mem } ∧
      ∀ k : Reg, k.val ≤ x.val → t.byteAt (indexAddr s k.val) = s.getV k := by
  have hin : indexAddr s x.val ≤ 4095 := (completesExactlyWhenRunnable.1 (.storeRegs x) s).mp ⟨t, h⟩
  obtain ⟨u, hu, hframe, hbytes⟩ := (blockStoreWritesMemory x s hm).1 hin
  obtain rfl : t = u := Host.Outcome.next.inj (h.symm.trans hu)
  refine ⟨hin, hframe, fun k hk => ?_⟩
  have hrange : indexAddr s 0 ≤ indexAddr s k.val ∧ indexAddr s k.val < indexAddr s (x.val + 1) := by
    simp only [indexAddr]
    omega
  have hoff : indexAddr s k.val - indexAddr s 0 = k.val := by
    simp [indexAddr]
  rw [hbytes, if_pos hrange, hoff]
  exact dif_pos k.isLt

/-- Settles O29: each register the load reads is the byte the store left at its address. -/
theorem blockStoreThenLoadRestores : Obligations.BlockStoreThenLoadRestores := by
  intro x s t u hm h hmem hI
  obtain ⟨hin, -, hbytes⟩ := storeRegs_eq_next hm h
  have hindex : ∀ k, indexAddr u k = indexAddr s k := fun k => by rw [indexAddr, indexAddr, hI]
  have hbyte : ∀ a, u.byteAt a = t.byteAt a := fun a => by rw [State.byteAt, State.byteAt, hmem]
  obtain ⟨u', hnext, hregs⟩ := (blockLoadWritesRegisters x u).1 ((hindex x.val).trans_le hin)
  refine ⟨u', hnext, hregs.congr fun k => ?_⟩
  by_cases hk : k.val ≤ x.val
  · rw [if_pos hk, if_pos hk, hbyte, hindex, hbytes k hk]
  · rw [if_neg hk, if_neg hk]

/-- Settles O30: the store changes memory alone, so the next fetch at the same `pc` reads the two stored bytes. -/
theorem storeIsSeenByTheNextFetch : Obligations.StoreIsSeenByTheNextFetch := by
  intro x k s t i hk hm h hpc hd
  have hx : x.val < 16 := x.isLt
  obtain ⟨hin, hframe, hbytes⟩ := storeRegs_eq_next hm h
  have htpc : t.pc.toNat = indexAddr s k := by rw [hframe, hpc]
  have hw : t.fetchedWord = wordOf (s.getV ⟨k, by omega⟩) (s.getV ⟨k + 1, by omega⟩) := by
    rw [State.fetchedWord, htpc, hbytes ⟨k, by omega⟩ hk.le]
    exact congrArg _ (hbytes ⟨k + 1, by omega⟩ hk)
  have hfetch : t.pc.toNat + 1 ≤ 4095 := by
    rw [htpc]
    simp only [indexAddr] at hin ⊢
    omega
  rw [step_of_fetch_inside hfetch, hw]
  exact execLatched_of_ok hd

end Sys2Proof.Machine
end

section
/-! PROOFS. 44_keypad_timers.md R170 to R172: the key skips and the key wait. -/

namespace Sys2Proof.Machine

/-- A skip on a condition, with the condition as a Boolean. -/
theorem State.skipIf_eq (s : State) (c : Bool) : s.skipIf c = { s with pc := if c = true then s.pc + 2 else s.pc } := by
  cases c <;> rfl

theorem State.skipIf_not (s : State) (c : Bool) :
    s.skipIf (!c) = { s with pc := if c = false then s.pc + 2 else s.pc } := by
  cases c <;> rfl

/-- Settles O36: with a key named each skip is decided by that key, and without one both fault. -/
theorem keySkipsTestTheNamedKey : Obligations.KeySkipsTestTheNamedKey := by
  intro x s
  rw [exec_skp, exec_sknp]
  constructor
  · intro h
    rw [withKey_of_le h, withKey_of_le h, State.skipIf_not, State.skipIf_eq]
    exact ⟨rfl, rfl⟩
  · intro h
    rw [withKey_of_gt (by omega), withKey_of_gt (by omega)]
    exact ⟨rfl, rfl⟩

/-- Settles O37: the scan finds exactly the lowest pressed key. -/
theorem keyWaitLoadsTheLowestKey : Obligations.KeyWaitLoadsTheLowestKey := by
  intro x s
  constructor
  · intro k hdown hlow
    exact ⟨_, exec_ldVxK_of_key (firstKey_some.mpr ⟨hdown, hlow⟩), registersBecome_setV s x _⟩
  · intro hup
    exact exec_ldVxK_of_no_key (firstKey_none.mpr hup)

/-- A run from a state that a step leaves as it is stays there. -/
theorem run_of_step_self {s : State} (h : step s = .next s) (n : Nat) : Host.Core.run core n s = .next s := by
  induction n with
  | zero => rfl
  | succ n ih => rw [run_succ_of_next h, ih]

/-- A run whose steps change nothing but the latch: the first latches the fetched word, the others find it latched. -/
theorem run_of_step_latches {s : State}
    (h : ∀ w : Word, step { s with opcode := w } = .next { s with opcode := s.fetchedWord }) (n : Nat) :
    Host.Core.run core (n + 1) s = .next { s with opcode := s.fetchedWord } := by
  rw [run_succ_of_next (h s.opcode)]
  exact run_of_step_self (h s.fetchedWord) n

/-- A step at a key wait with no key pressed takes the advance of `pc` back, whatever was latched. -/
theorem step_of_keyWait {x : Reg} {s : State} (hpc : s.pc.toNat + 1 ≤ 4095)
    (hd : decodeWord s.fetchedWord = .ok (.ldVxK x)) (hup : ∀ k : Key, s.keypad[k.val] = false) :
    step s = .next { s with opcode := s.fetchedWord } := by
  rw [step_eq_exec_fetched hpc hd, exec_ldVxK_of_no_key (s := s.fetched) (firstKey_none.mpr hup)]
  simp only [State.setPc, State.fetched, BitVec.add_sub_cancel]

/-- Settles O38: each step leaves the same waiting state with the word latched. -/
theorem keyWaitHoldsPcAcrossSteps : Obligations.KeyWaitHoldsPcAcrossSteps := by
  intro x s n hpc hd hup
  exact run_of_step_latches (fun w => step_of_keyWait (s := { s with opcode := w }) hpc hd hup) n

end Sys2Proof.Machine
end

section
/-! PROOFS. 43_display.md R161, R162 and 60_exceptions.md R211: drawing a sprite and reading the display. -/

namespace Sys2Proof.Machine

/-- Settles O32: of the two ends of a draw, a sprite that fits has the one that completes. -/
theorem drwXorsTheSpriteAndFlagsCollision : Obligations.DrwXorsTheSpriteAndFlagsCollision := by
  intro x y n s hfits
  rcases execDrw_spec x y n s with ⟨t, ht, -, hdrawn⟩ | ⟨_, _, _, _, -, -, -, hnot, -⟩
  · exact ⟨t, ht, hdrawn.rest, hdrawn.cells, hdrawn.getV⟩
  · exact absurd hfits hnot

/-- A pixel that does not fit is a set bit off the grid. -/
theorem not_pixelFits_iff {s : State} {cx cy base r c : Nat} :
    ¬ pixelFits s cx cy base r c ↔ spriteBit (s.byteAt (base + r)) c = true ∧ (63 < cx + c ∨ 31 < cy + r) := by
  rw [pixelFits, Classical.not_imp, Classical.not_and_iff_not_or_not, Nat.not_lt, Nat.not_lt]
  rfl

/-- Settles O33: of the two ends of a draw, one that faults has the one that stops at the first violation. -/
theorem drwFaultsAtTheFirstViolation : Obligations.DrwFaultsAtTheFirstViolation := by
  intro x y n s f h cx cy base
  rcases execDrw_spec x y n s with ⟨t, ht, -⟩ | ⟨r, c, t, g, hr, hg, hleft, -, hdrawn, hrows, hfault⟩
  · cases h.symm.trans ht
  · obtain rfl : g = f := Host.Outcome.fault.inj (hg.symm.trans h)
    subst hleft
    refine ⟨r, c, hr, ?_, hrows, ?_, hdrawn.rest, hdrawn.cells, hdrawn.getV⟩
    · rcases hfault with hmem | ⟨hg, hin, hc, hnot, -⟩
      · exact .inl hmem
      · exact .inr ⟨hg, hc, hin, not_pixelFits_iff.mp hnot⟩
    · rcases hfault with ⟨-, rfl, -⟩ | ⟨-, -, -, -, hpixels⟩
      · exact fun c' hc' => absurd hc' (Nat.not_lt_zero c')
      · exact hpixels

/-- A cell under the sprite is lit after one draw exactly when it was dark before. -/
theorem covered_and_lit_iff {s t : State} {x y : Reg} {n : Nat}
    (hcells : ∀ row col, t.cell row col = (s.cell row col ^^ covered s x y n row col)) (row : Fin 32) (col : Fin 64) :
    covered s x y n row col = true ∧ t.cell row col = true ↔
      covered s x y n row col = true ∧ s.cell row col = false := by
  refine and_congr_right fun hcov => ?_
  rw [hcells, hcov, Bool.xor_true, Bool.not_eq_true']

/-- Settles O34: the second draw covers the same cells as the first, since neither coordinate is register 15, so every
cell is flipped twice. -/
theorem drwTwiceRestoresTheDisplay : Obligations.DrwTwiceRestoresTheDisplay := by
  intro x y n s hx hy hfits
  obtain ⟨t, ht, hframe, hcells, hregs⟩ := drwXorsTheSpriteAndFlagsCollision x y n s hfits
  have htx : t.getV x = s.getV x := (hregs x).trans (if_neg hx)
  have hty : t.getV y = s.getV y := (hregs y).trans (if_neg hy)
  have htI : t.I = s.I := by rw [hframe]
  have htb : ∀ a, t.byteAt a = s.byteAt a := fun a => by rw [hframe]; rfl
  have hcov := covered_congr (n := n) htx hty htI htb
  obtain ⟨u, hu, -, hcells', hregs'⟩ :=
    drwXorsTheSpriteAndFlagsCollision x y n t ((spriteFits_congr htx hty htI htb).mpr hfits)
  refine ⟨u, by rw [ht, andThen_next, hu], display_ext fun row col => ?_, fun k => ?_⟩
  · have hcell := hcells' row col
    rw [hcells, hcov, Bool.xor_assoc, Bool.xor_self, Bool.xor_false] at hcell
    exact hcell
  · rw [hregs' k]
    simp only [hcov, covered_and_lit_iff hcells]
    by_cases hk : k = 15
    · rw [if_pos hk, if_pos hk]
    · rw [if_neg hk, if_neg hk, hregs, if_neg hk]

/-- Settles O35: inside the grid every pixel fits, set or not. -/
theorem drwInsideTheGridCompletes : Obligations.DrwInsideTheGridCompletes := by
  intro x y n s hx hy hI
  have hfits : spriteFits s x y n := by
    intro r hr
    refine ⟨?_, fun c hc _ => ⟨?_, ?_⟩⟩ <;> simp only [indexAddr, coordOperand] <;> omega
  obtain ⟨t, ht, -⟩ := drwXorsTheSpriteAndFlagsCollision x y n s hfits
  exact ⟨t, ht⟩

/-- The cell at index `row * 64 + col` of the readout. -/
theorem displayBits_getElem (s : State) (row : Fin 32) (col : Fin 64) :
    (displayBits s)[row.val * 64 + col.val]'(by omega) = s.cell row col := by
  have hrow : (row.val * 64 + col.val) / 64 = row.val := by omega
  have hcol : (row.val * 64 + col.val) % 64 = col.val := by omega
  simp only [displayBits, Vector.getElem_ofFn, hrow, hcol]

/-- Settles O44: the index of a cell splits into its row and column, and a byte of the readout is the flag of its bit. -/
theorem displayReadAnswersTheCells : Obligations.DisplayReadAnswersTheCells := by
  intro m row col
  refine ⟨rfl, displayBits_getElem m.machine row col, ?_⟩
  simp only [displayBytes, Vector.getElem_map, displayBits_getElem]
  cases m.machine.cell row col <;> rfl

end Sys2Proof.Machine
end

section
/-! PROOFS. 10_state.md R40 and 70_reset_and_hazards.md R222 to R225: reset and launch. -/

namespace Sys2Proof.Machine

/-! ### The bytes of the font and of an image -/

/-- RESET leaves the font at `FONT_BASE`. -/
theorem resetWith_font_byteAt (font : Vector Byte 80) (j : Fin 80) :
    (resetWith font).byteAt (0x50 + j.val) = font[j.val] := by
  have := Memory.read_writeList (bs := font.toList) (m := []) (a := fontBase) rfl (by simp [fontBase]) j.val (by simp)
  rwa [Vector.getElem_toList] at this

/-- The reset contents are 0 outside the font. -/
theorem resetByte_outside_font {a : Nat} (h : a < 0x50 ∨ 0x9F < a) : resetByte a = 0 := by
  rw [resetByte, dif_neg]
  rw [fontBase]
  omega

/-- RESET leaves every byte outside the font 0. -/
theorem resetWith_byteAt_outside_font (font : Vector Byte 80) {a : Nat} (h : a < 0x50 ∨ 0x9F < a) :
    (resetWith font).byteAt a = 0 := by
  refine Eq.trans (Memory.read_writeList_ne ?_) (resetByte_outside_font h)
  rw [Vector.length_toList, fontBase]
  omega

/-- LOAD leaves the image from 0x200 on. -/
theorem load_image_byteAt {s : State} (hm : s.mem.wf = true) {img : List Byte} (h : img.length ≤ 3584) (j : Nat)
    (hj : j < img.length) : (load img s).byteAt (0x200 + j) = img[j] :=
  Memory.read_writeList hm (by simp only [Config.programBase]; omega) j hj

/-- LOAD leaves every byte outside the image. -/
theorem load_byteAt_outside_image (s : State) {img : List Byte} {a : Nat} (h : a < 0x200 ∨ 0x200 + img.length ≤ a) :
    (load img s).byteAt a = s.byteAt a :=
  Memory.read_writeList_ne h

/-- Settles O45: all but memory is a fixed value, and memory is the font written over the reset contents. -/
theorem resetValues : Obligations.ResetValues := by
  intro font s
  refine ⟨fun x => ?_, rfl, rfl, rfl, fun k => ?_, rfl, rfl, ?_, fun k => ?_, rfl, resetWith_font_byteAt font,
    fun a => resetWith_byteAt_outside_font font⟩
  · exact Vector.getElem_replicate _
  · exact Vector.getElem_replicate _
  · exact State.cell_of_display_dark rfl
  · exact Vector.getElem_replicate _

/-- Writing the default font leaves the reset contents at every address. -/
theorem resetWith_fontTable_byteAt (a : Nat) : (resetWith fontTable).byteAt a = resetByte a := by
  by_cases h : fontBase ≤ a ∧ a < fontBase + 80
  · have hfont := resetWith_font_byteAt fontTable ⟨a - fontBase, by omega⟩
    rw [show 0x50 + (a - fontBase) = a by rw [fontBase] at *; omega] at hfont
    rw [hfont, resetByte, dif_pos h]
  · have hout : a < 0x50 ∨ 0x9F < a := by
      rw [fontBase] at h
      omega
    rw [resetWith_byteAt_outside_font fontTable hout, resetByte_outside_font hout]

/-- Settles O46: memory holds the reset contents, whose canonical form lists no byte. -/
theorem resetStateHasTheDefaultFont : Obligations.ResetStateHasTheDefaultFont := by
  have hmem : (resetWith fontTable).mem = State.reset.mem :=
    Memory.eq_of_read_eq (resetWith_mem_wf fontTable) reset_mem_wf resetWith_fontTable_byteAt
  exact congrArg (fun m => { State.reset with mem := m }) hmem

/-- Settles O48: the word at 0x200 is 0, which selects nothing. -/
theorem unloadedMachineFaults : Obligations.UnloadedMachineFaults := by
  have hw : State.reset.fetchedWord = 0 := rfl
  have hd : decodeWord 0 = .error (.unknownOpcode 0) := rfl
  rw [Obligations.UnloadedMachineFaults, step_of_fetch_inside (by decide), hw]
  exact execLatched_of_error hd

/-- RESET with any font meets the invariant. -/
theorem resetWith_inv (font : Vector Byte 80) : (resetWith font).Inv := by
  have hpc : (0x200 : Word).toNat ≤ 0x10FE := by decide
  refine ⟨resetWith_mem_wf font, hpc, fun k => ?_⟩
  rw [show (resetWith font).stack[k.val] = 0 from Vector.getElem_replicate _]
  decide

/-- Settles O51: the state of the interface is RESET with the default font. -/
theorem resetMeetsTheInvariant : Obligations.ResetMeetsTheInvariant := by
  refine ⟨?_, resetWith_inv⟩
  rw [← resetStateHasTheDefaultFont]
  exact resetWith_inv fontTable

end Sys2Proof.Machine
end

section
/-! PROOFS. 60_exceptions.md R194, R209 and 70_reset_and_hazards.md R224 to R226: the transactions of a session. -/

namespace Sys2Proof.Machine

/-! ### What an accepted transaction did -/

theorem transact_load_of_fresh {m : Session} (hp : m.phase = .fresh) {img : List Byte} (h : img.length ≤ 3584) :
    transact (.load img) m = .ok (⟨.loaded, load img m.machine⟩, .done) := by
  simp [transact, transactLoad, hp, h]

theorem transact_load_of_too_long {m : Session} (hp : m.phase = .fresh) {img : List Byte} (h : 3584 < img.length) :
    transact (.load img) m = .error (.imageTooLong img.length) := by
  simp [transact, transactLoad, hp, h]

theorem transact_load_of_not_fresh {m : Session} (hp : m.phase ≠ .fresh) (img : List Byte) :
    transact (.load img) m = .error .loadOutOfPlace := by
  cases h : m.phase
  case fresh => exact absurd h hp
  all_goals simp [transact, transactLoad, h]

/-- A LOAD is accepted only after RESET, of a legal image. -/
theorem transact_load_eq_ok {m m' : Session} {r : Response} {img : List Byte}
    (h : transact (.load img) m = .ok (m', r)) :
    m.phase = .fresh ∧ img.length ≤ 3584 ∧ m' = ⟨.loaded, load img m.machine⟩ := by
  by_cases hp : m.phase = .fresh
  · by_cases hlen : img.length ≤ 3584
    · rw [transact_load_of_fresh hp hlen] at h
      cases h
      exact ⟨hp, hlen, rfl⟩
    · rw [transact_load_of_too_long hp (by omega)] at h
      cases h
  · rw [transact_load_of_not_fresh hp] at h
    cases h

theorem transact_step_of_stopped {m : Session} (hp : m.phase = .stopped) :
    transact .step m = .error .stepAfterFault := by
  simp [transact, transactStep, hp]

theorem transact_step_of_not_stopped {m : Session} (hp : m.phase ≠ .stopped) :
    transact .step m = afterStep (step m.machine) := by
  cases h : m.phase
  case stopped => exact absurd h hp
  all_goals simp [transact, transactStep, h]

/-- An accepted STEP ran a step of a machine that had not faulted: completed, the run goes on with its next state;
faulted, the run stops with the state the fault left. -/
theorem transact_step_eq_ok {m m' : Session} {r : Response} (h : transact .step m = .ok (m', r)) :
    m.phase ≠ .stopped ∧
    ((∃ s, step m.machine = .next s ∧ m' = ⟨.running, s⟩ ∧ r = .ok) ∨
      ∃ f, step m.machine = .fault f ∧ m' = ⟨.stopped, f.leftState⟩ ∧ r = .fault f) := by
  by_cases hp : m.phase = .stopped
  · rw [transact_step_of_stopped hp] at h
    cases h
  · rw [transact_step_of_not_stopped hp] at h
    refine ⟨hp, ?_⟩
    cases hs : step m.machine with
    | next s =>
      rw [hs] at h
      cases h
      exact .inl ⟨s, rfl, rfl, rfl⟩
    | fault f =>
      rw [hs] at h
      cases h
      exact .inr ⟨f, rfl, rfl, rfl⟩
    | refused r => exact absurd hs (step_ne_refused _ r)

/-- The machine after an accepted STEP is what the step left. -/
theorem leaves_step_of_transact {m m' : Session} {r : Response} (h : transact .step m = .ok (m', r)) :
    leaves (step m.machine) = some m'.machine := by
  obtain ⟨-, ⟨s, hs, rfl, -⟩ | ⟨f, hf, rfl, -⟩⟩ := transact_step_eq_ok h
  · exact leaves_of_eq_next hs
  · exact leaves_of_eq_fault hf

/-- What each accepted transaction keeps, every list of accepted transactions keeps. -/
theorem transactAll_keeps {P : Session → Prop} : ∀ {ts : List Transaction} {m m' : Session},
    (∀ t ∈ ts, ∀ m m' r, P m → transact t m = .ok (m', r) → P m') → P m → transactAll ts m = .ok m' → P m'
  | [], m, m', _, hm, h => by
    cases h
    exact hm
  | t :: ts, m, m', hkeep, hm, h => by
    rw [transactAll] at h
    split at h
    next m₁ r ht =>
      exact transactAll_keeps (fun u hu => hkeep u (List.mem_cons_of_mem t hu))
        (hkeep t List.mem_cons_self m m₁ r hm ht) h
    next => cases h

/-! ### The invariant in a session -/

/-- Every accepted transaction keeps the invariant of the machine. -/
theorem transact_keeps_inv {t : Transaction} {m m' : Session} {r : Response} (hinv : m.machine.Inv)
    (h : transact t m = .ok (m', r)) : m'.machine.Inv := by
  cases t with
  | reset font =>
    cases h
    exact resetWith_inv font
  | load img =>
    obtain ⟨-, hlen, rfl⟩ := transact_load_eq_ok h
    exact ⟨load_mem_wf hinv.1 hlen, hinv.2⟩
  | step => exact stepKeepsTheInvariant _ _ hinv (leaves_step_of_transact h)
  | tick | keys | displayRead =>
    cases h
    exact hinv

/-- Settles O53: the invariant holds after RESET and every accepted transaction keeps it. -/
theorem sessionsKeepTheInvariant : Obligations.SessionsKeepTheInvariant := by
  intro font ts m h
  exact transactAll_keeps (P := fun m => m.machine.Inv) (fun t _ m m' r => transact_keeps_inv) (resetWith_inv font) h

/-! ### The phases of a session -/

/-- Without a RESET no accepted transaction leads back to the phase in which LOAD has a meaning. -/
theorem transact_keeps_not_fresh {t : Transaction} (ht : ∀ font, t ≠ .reset font) {m m' : Session} {r : Response}
    (hp : m.phase ≠ .fresh) (h : transact t m = .ok (m', r)) : m'.phase ≠ .fresh := by
  cases t with
  | reset font => exact absurd rfl (ht font)
  | load img => exact absurd (transact_load_eq_ok h).1 hp
  | step => obtain ⟨-, ⟨s, -, rfl, -⟩ | ⟨f, -, rfl, -⟩⟩ := transact_step_eq_ok h <;> simp
  | tick | keys | displayRead =>
    cases h
    exact hp

/-- Without a RESET no accepted transaction leaves the phase after a fault. -/
theorem transact_keeps_stopped {t : Transaction} (ht : ∀ font, t ≠ .reset font) {m m' : Session} {r : Response}
    (hp : m.phase = .stopped) (h : transact t m = .ok (m', r)) : m'.phase = .stopped := by
  cases t with
  | reset font => exact absurd rfl (ht font)
  | load img => exact absurd ((transact_load_eq_ok h).1.symm.trans hp) (by decide)
  | step => exact absurd hp (transact_step_eq_ok h).1
  | tick | keys | displayRead =>
    cases h
    exact hp

/-- Settles O49: an image too long is refused in either way; a LOAD or STEP leaves the phase after RESET, and only a
RESET leads back to it. -/
theorem loadHappensOnceBeforeTheFirstStep : Obligations.LoadHappensOnceBeforeTheFirstStep := by
  constructor
  · intro img m hlen
    by_cases hp : m.phase = .fresh
    · exact ⟨_, transact_load_of_too_long hp hlen⟩
    · exact ⟨_, transact_load_of_not_fresh hp img⟩
  · intro t m m' m'' r ts img ht h hts hall
    have hp : m'.phase ≠ .fresh := by
      rcases ht with rfl | ⟨im, rfl⟩
      · obtain ⟨-, ⟨s, -, rfl, -⟩ | ⟨f, -, rfl, -⟩⟩ := transact_step_eq_ok h <;> simp
      · obtain ⟨-, -, rfl⟩ := transact_load_eq_ok h
        simp
    refine transact_load_of_not_fresh ?_ img
    exact transactAll_keeps (P := fun m => m.phase ≠ .fresh)
      (fun u hu _ _ _ => transact_keeps_not_fresh (hts u hu)) hp hall

/-- Settles O50: the fault stops the run, and only a RESET leads out of that phase. -/
theorem faultedMachineStaysStopped : Obligations.FaultedMachineStaysStopped := by
  intro m m' f h
  obtain ⟨-, ⟨s, -, -, hr⟩ | ⟨g, -, rfl, hr⟩⟩ := transact_step_eq_ok h
  · cases hr
  · cases hr
    refine ⟨rfl, fun ts m'' hts hall => transact_step_of_stopped ?_⟩
    exact transactAll_keeps (P := fun m => m.phase = .stopped)
      (fun u hu _ _ _ => transact_keeps_stopped (hts u hu)) rfl hall

/-- Settles O47: LOAD is accepted after RESET, and its image lies past the font. -/
theorem launchState : Obligations.LaunchState := by
  intro font img hlen
  have hm := resetWith_mem_wf font
  refine ⟨_, transact_load_of_fresh rfl hlen, rfl, rfl, load_mem_wf hm hlen, fun j => ?_,
    load_image_byteAt hm hlen, fun a ha => ?_⟩
  · rw [load_byteAt_outside_image _ (by omega)]
    exact resetWith_font_byteAt font j
  · rw [load_byteAt_outside_image _ (by omega)]
    exact resetWith_byteAt_outside_font font (by omega)

/-! ### The delay timer -/

/-- A step leaves the delay timer as it was, but for the load of the timer. -/
theorem step_keeps_DT {s t : State} (h : leaves (step s) = some t) :
    t.DT = s.DT ∨ ∃ x, decodeWord s.fetchedWord = .ok (.ldDTVx x) := by
  rcases leaves_step h with ⟨-, rfl⟩ | ⟨-, rfl⟩ | ⟨-, i, hd, hi⟩
  · exact .inl rfl
  · exact .inl rfl
  · by_cases hDT : t.DT = s.DT
    · exact .inl hDT
    · obtain ⟨x, rfl⟩ := exec_writes_DT hi hDT
      exact .inr ⟨x, hd⟩

/-- Settles O42: of the transactions other than RESET only TICK counts the timer, down, and only a STEP of LD DT,Vx
loads it. -/
theorem delayTimerOnlyFalls : Obligations.DelayTimerOnlyFalls := by
  intro t m m' r h ht
  cases t with
  | reset font => exact absurd rfl (ht font)
  | load img =>
    obtain ⟨-, -, rfl⟩ := transact_load_eq_ok h
    exact .inl le_rfl
  | step =>
    rcases step_keeps_DT (leaves_step_of_transact h) with hDT | hload
    · exact .inl (hDT ▸ le_rfl)
    · exact .inr ⟨rfl, hload⟩
  | tick =>
    cases h
    exact .inl ((toNat_countDown _).trans_le (Nat.sub_le _ 1))
  | keys | displayRead =>
    cases h
    exact .inl le_rfl

/-! ### The end of a run -/

/-- A `pc` from which a word can be fetched fits the address field of a JP. -/
theorem addrOperand_setWidth {w : Word} (h : w.toNat + 1 ≤ 4095) : addrOperand (w.setWidth 12) = w := by
  apply BitVec.eq_of_toNat_eq
  rw [toNat_addrOperand, BitVec.toNat_setWidth, Nat.mod_eq_of_lt]
  change w.toNat < 4096
  omega

/-- A step at the end of a run jumps to itself. -/
theorem step_of_ended {s : State} (h : s.ended = true) : step s = .next { s with opcode := s.fetchedWord } := by
  obtain ⟨hpc, hd⟩ := ended_iff.mp h
  rw [step_eq_exec_fetched hpc hd, exec_jp, addrOperand_setWidth hpc]
  rfl

/-- Settles O60: each step at the end jumps to itself, and the other transactions touch neither `pc` nor memory. -/
theorem endedRunStaysEnded : Obligations.EndedRunStaysEnded := by
  constructor
  · intro s n h
    exact run_of_step_latches (fun w => step_of_ended (s := { s with opcode := w }) h) n
  · intro t m m' r h htr hreset hload
    obtain ⟨hp, hend⟩ := endedWell_iff.mp h
    cases t with
    | reset font => exact absurd rfl (hreset font)
    | load img => exact absurd rfl (hload img)
    | step =>
      rw [transact_step_of_not_stopped hp, step_of_ended hend] at htr
      cases htr
      exact ⟨endedWell_iff.mpr ⟨nofun, hend⟩, nofun⟩
    | tick | keys | displayRead =>
      cases htr
      exact ⟨endedWell_iff.mpr ⟨hp, hend⟩, nofun⟩

end Sys2Proof.Machine
end
